-- ==== Sys2Proof/Word.lean ====
section
/-!
DEFINITION. The word types of the bus and of the engine (20_memory.md R40, 30_encoding.md R60, 00_scope.md R6).
Every value of the spec is unsigned.
-/
namespace Sys2Proof

/-- A byte, 8 bits (R6). -/
abbrev Byte := BitVec 8

/-- A halfword, 16 bits (R6), the width RES_W of the checksum (R5). -/
abbrev Half := BitVec 16

/-- A bus word, 32 bits (R6): the width DATA_W of wdata and rdata and the width ACC_W of ACC (R5). -/
abbrev Word := BitVec 32

/-- The request vector REQ[8:0] (R60). -/
abbrev ReqVec := BitVec 9

end Sys2Proof
end

