-- ==== Sys2Proof/Machine/Arith.lean ====
section
/-!
DEFINITION. The engine's arithmetic (00_scope.md R9, R6): end-around-carry addition, the 16-bit fold, the byte swap.
-/
namespace Sys2Proof.Machine

/-- End-around-carry addition (R9): a 33-bit sum whose carry is added back at bit 0. -/
def eac32 (a b : Word) : Word :=
  let s : BitVec 33 := a.setWidth 33 + b.setWidth 33
  s.extractLsb' 0 32 + (s.extractLsb' 32 1).setWidth 32

/-- The 16-bit fold of a 32-bit value (R9): a 17-bit sum of the halves whose carry is added back at bit 0. -/
def fold16 (x : Word) : Half :=
  let y : BitVec 17 := (x.extractLsb' 16 16).setWidth 17 + (x.extractLsb' 0 16).setWidth 17
  y.extractLsb' 0 16 + (y.extractLsb' 16 1).setWidth 16

/-- swap16(x) = {x[7:0], x[15:8]} (R6). -/
def swap16 (x : Half) : Half := x.extractLsb' 0 8 ++ x.extractLsb' 8 8

end Sys2Proof.Machine
end

