-- ==== Sys2Proof/Config.lean ====
section
/-!
DEFINITION. What the platform fixes, and the free values.
The other parameters of 00_scope.md R5 are fixed by the types: ACC_W and DATA_W are 32 (`Word`), RES_W is 16 (`Half`),
ADDR_W is 5, MAX_LEN is unbounded (no length is kept anywhere), N_INST is 1 (one State).
-/
namespace Sys2Proof

/-- The platform's parameter (R5, R41): the byte address of the register window in the host's address space. The engine does
not see it, so no step takes it; only the host's view (`Machine/HostView.lean`) does. -/
structure Config where
  /-- BASE. -/
  base : Nat
  deriving DecidableEq, Repr

/-- BASE is "any multiple of 32" (R5). -/
def Config.wf (c : Config) : Bool := c.base % 32 == 0

/-- The size of the register window in bytes (R5, R41). -/
def Config.windowBytes : Nat := 32

/-- FREE VALUE (log 3, 93_implementation_defined.md I1): ACC before the first reset. -/
opaque Config.freeAcc : Nat → Word

/-- FREE VALUE (log 3, I1): ODD before the first reset. -/
opaque Config.freeOdd : Nat → Bool

/-- FREE VALUE (log 3, I1): rsp before the first reset. -/
opaque Config.freeRsp : Nat → Bool

/-- FREE VALUE (log 3, I1): err before the first reset. -/
opaque Config.freeErr : Nat → Bool

/-- FREE VALUE (log 3, I1): rdata before the first reset. -/
opaque Config.freeRdata : Nat → Word

end Sys2Proof
end

