-- ==== Sys2Proof/Syntax.lean ====
section
/-!
DEFINITION. The bus requests, one constructor per row of spec/opcode_table.json (30_encoding.md R62).
A write carries all of WDATA, ignored bits included (R65: they may be non-zero); a read and IDLE carry nothing, since all of
WDATA is ignored there (R60, R63); BUSERR carries the request fields that its cause depends on (R101). Log 9.
-/
namespace Sys2Proof

/-- One request as it stands on the ports: REQ[8:0] and WDATA[31:0] (R60). -/
structure Request where
  req : ReqVec
  wdata : Word
  deriving DecidableEq, Repr

/-- The nine operations of R62. -/
inductive Instr where
  /-- IDLE: req = 0, no request (R63, R94). -/
  | idle
  /-- WRDATA8: feed WDATA[7:0] (R81). -/
  | wrData8 (wdata : Word)
  /-- WRDATA16: feed WDATA[15:8], WDATA[7:0] (R82). -/
  | wrData16 (wdata : Word)
  /-- WRDATA32: feed the four bytes of WDATA, most significant first (R83). -/
  | wrData32 (wdata : Word)
  /-- WRCTRL: CLEAR if WDATA[0] = 1 (R90). -/
  | wrCtrl (wdata : Word)
  /-- RDRESULT: rdata <- RESULT (R91). -/
  | rdResult
  /-- RDSUM: rdata <- SUM (R92). -/
  | rdSum
  /-- RDSTATUS: rdata <- STATUS (R93). -/
  | rdStatus
  /-- BUSERR: any other request with req = 1 (R64, R102). -/
  | busErr (we : Bool) (size : BitVec 2) (addr : BitVec 5)
  deriving DecidableEq, Repr

end Sys2Proof
end

