-- ==== Sys2Proof/WellFormed.lean ====
section
/-!
DEFINITION. Which terms of `Instr` stand for a request. Every WDATA is legal (10_state.md R25, R28), so the one check is that a
BUSERR term is not one of the seven legal requests, said here from the register map (20_memory.md R42, R43, R44) and not from
the decoder's masks.
-/
namespace Sys2Proof

/-- The register map of R42: whether an access in this direction, with this size code, at this offset is legal. -/
def legalAccess (we : Bool) (size : BitVec 2) (addr : BitVec 5) : Bool :=
  if addr = 0x00#5 then we && size != 0b11#2
  else if addr = 0x0C#5 then we && size == 0b10#2
  else if addr = 0x04#5 ∨ addr = 0x08#5 ∨ addr = 0x10#5 then !we && size == 0b10#2
  else false

/-- A BUSERR is a request with req = 1 that matches no legal row (R64). -/
def Instr.wf : Instr → Bool
  | .idle => true
  | .wrData8 _ => true
  | .wrData16 _ => true
  | .wrData32 _ => true
  | .wrCtrl _ => true
  | .rdResult => true
  | .rdSum => true
  | .rdStatus => true
  | .busErr we size addr => !legalAccess we size addr

end Sys2Proof
end

