-- ==== Sys2Proof/Decode.lean ====
section
/-!
DEFINITION. The decoder of 30_encoding.md R62 (nine rows with a match and a mask over REQ[8:0], in order, first match wins), the
encoder (R60, R62, R67), and the reading of a table word as a request (log 7).
-/
namespace Sys2Proof

/-! ### The fields of REQ (R60) -/

/-- REQ[8:0] = {req, we, size, addr} (R60). -/
def mkReq (req we : Bool) (size : BitVec 2) (addr : BitVec 5) : ReqVec :=
  BitVec.ofBool req ++ BitVec.ofBool we ++ size ++ addr

/-- REQ[7], the port we (R60). -/
def reqWe (r : ReqVec) : Bool := r.getLsbD 7

/-- REQ[6:5], the port size (R60). -/
def reqSize (r : ReqVec) : BitVec 2 := r.extractLsb' 5 2

/-- REQ[4:0], the port addr (R60). -/
def reqAddr (r : ReqVec) : BitVec 5 := r.extractLsb' 0 5

/-! ### The opcode map (R62) -/

/-- The mnemonics of R62. -/
inductive Opcode where
  | idle | wrData8 | wrData16 | wrData32 | wrCtrl | rdResult | rdSum | rdStatus | busErr
  deriving DecidableEq, Repr

/-- One row of R62: `value` is its match column. -/
structure OpcodeRow where
  opcode : Opcode
  value : ReqVec
  mask : ReqVec
  deriving DecidableEq, Repr

/-- A row matches REQ when REQ under the mask is the match value (R62). -/
def OpcodeRow.hits (row : OpcodeRow) (r : ReqVec) : Bool := r &&& row.mask == row.value

/-- The rows of R62, in its order. -/
def opcodeTable : List OpcodeRow :=
  [ ⟨.idle,     0x000#9, 0x100#9⟩,
    ⟨.wrData8,  0x180#9, 0x1FF#9⟩,
    ⟨.wrData16, 0x1A0#9, 0x1FF#9⟩,
    ⟨.wrData32, 0x1C0#9, 0x1FF#9⟩,
    ⟨.wrCtrl,   0x1CC#9, 0x1FF#9⟩,
    ⟨.rdResult, 0x144#9, 0x1FF#9⟩,
    ⟨.rdSum,    0x148#9, 0x1FF#9⟩,
    ⟨.rdStatus, 0x150#9, 0x1FF#9⟩,
    ⟨.busErr,   0x100#9, 0x100#9⟩ ]

/-- The first row that matches (R62). IDLE and BUSERR between them match every REQ, so the default is never used
(`Laws/Encoding.lean`, `opcodeTable_covers`). -/
def firstMatch (r : ReqVec) : Opcode :=
  match opcodeTable.find? (fun row => row.hits r) with
  | some row => row.opcode
  | none => .busErr

/-- The decoder: total, since every REQ matches a row (R62, R66). -/
def decode (r : ReqVec) (wdata : Word) : Instr :=
  match firstMatch r with
  | .idle => .idle
  | .wrData8 => .wrData8 wdata
  | .wrData16 => .wrData16 wdata
  | .wrData32 => .wrData32 wdata
  | .wrCtrl => .wrCtrl wdata
  | .rdResult => .rdResult
  | .rdSum => .rdSum
  | .rdStatus => .rdStatus
  | .busErr => .busErr (reqWe r) (reqSize r) (reqAddr r)

/-- The decoder on a whole request. -/
def Request.decode (q : Request) : Instr := Sys2Proof.decode q.req q.wdata

/-! ### The encoder -/

/-- The request of an operation, ignored bits 0 as the assembler writes them (R62, R67; log 9). -/
def encode : Instr → Request
  | .idle => ⟨0x000#9, 0#32⟩
  | .wrData8 w => ⟨0x180#9, w⟩
  | .wrData16 w => ⟨0x1A0#9, w⟩
  | .wrData32 w => ⟨0x1C0#9, w⟩
  | .wrCtrl w => ⟨0x1CC#9, w⟩
  | .rdResult => ⟨0x144#9, 0#32⟩
  | .rdSum => ⟨0x148#9, 0#32⟩
  | .rdStatus => ⟨0x150#9, 0#32⟩
  | .busErr we size addr => ⟨mkReq true we size addr, 0#32⟩

/-! ### Table words (log 7) -/

/-- Why a numeral is no request. -/
inductive DecodeReject where
  /-- A bit between REQ[8] and WDATA[0] is set: bits 15 to 9 of the numeral. -/
  | strayBits
  /-- The numeral is longer than a request: bits above 47. -/
  | tooLong
  deriving DecidableEq, Repr

/-- A numeral as a request: REQ in the low 9 bits of its first 16-bit word, WDATA in bits 47 to 16. DESIGN CHOICE (log 7): the
spec gives a request no layout in memory. -/
def Request.ofBits (w : Nat) : Except DecodeReject Request :=
  if 2 ^ 48 ≤ w then .error .tooLong
  else if (w / 2 ^ 9) % 2 ^ 7 ≠ 0 then .error .strayBits
  else .ok ⟨BitVec.ofNat 9 w, BitVec.ofNat 32 (w / 2 ^ 16)⟩

/-- The numeral of a request, the other direction of `Request.ofBits`. -/
def Request.toBits (q : Request) : Nat := q.req.toNat + q.wdata.toNat * 2 ^ 16

/-- What the decoder reads from the low `nbits` bits of `w`, the bits above them 0; none where they are no request. -/
def decodeTableWord (nbits w : Nat) : Option Instr :=
  match Request.ofBits (w % 2 ^ nbits) with
  | .ok q => some q.decode
  | .error _ => none

end Sys2Proof
end

