-- ==== Sys2Proof/Machine/State.lean ====
section
/-!
DEFINITION. The machine's state (10_state.md R20), the host's events, the reasons a step can stop, and the state after reset.
-/
namespace Sys2Proof.Machine

/-- The input ports as the engine samples them at a rising edge of clk (20_memory.md R40). -/
structure PortInputs where
  /-- rst, synchronous reset. -/
  rst : Bool
  /-- req, a request is presented. -/
  req : Bool
  /-- we, 1 = write. -/
  we : Bool
  /-- size, the access size code. -/
  size : BitVec 2
  /-- addr, the byte offset into the window. -/
  addr : BitVec 5
  /-- wdata, the write data. -/
  wdata : Word
  deriving DecidableEq, Repr

/-- What the host and the platform can do to the engine (log 1). -/
inductive HostEvent where
  /-- A rising edge of clk with these inputs (R40). -/
  | edge (p : PortInputs)
  /-- A rising edge at which an input is not a stable binary value (92_eei_decisions.md D27). -/
  | edgeNotBinary
  /-- A time with clk stopped (60_exceptions.md R111). -/
  | clkStopped
  /-- A loss of power, and power back (R111). -/
  | powerLoss
  deriving DecidableEq, Repr

/-- Whether a reset has occurred since power-up (70_reset_and_hazards.md R121; log 3). -/
inductive Phase where
  | unreset
  | running
  deriving DecidableEq, Repr

/-- The state: the five pieces of R20, and the model's own three fields (logs 1 and 3). -/
structure State where
  /-- ACC, the accumulator (R21). -/
  acc : Word
  /-- ODD, the phase of the stream (R22). -/
  odd : Bool
  /-- The registered output rsp (R40). -/
  rsp : Bool
  /-- The registered output err (R40). -/
  err : Bool
  /-- The registered output rdata (R40). -/
  rdata : Word
  /-- The model's own: whether a reset has occurred (log 3). -/
  phase : Phase
  /-- The model's own: how many times the free values were drawn (log 3). -/
  draws : Nat
  /-- The model's own: what the host does next, soonest first (log 1). -/
  events : List HostEvent
  deriving DecidableEq, Repr

/-- The engine has no fault that stops it: a BusError is a response, after which it goes on (60_exceptions.md R102, R104),
and no computation fails (R100). No step raises a fault; that is the spec's own behaviour (log 11). -/
inductive Fault where
  deriving DecidableEq, Repr

/-- Why a step has no meaning. -/
inductive Refusal where
  /-- Raised by `exec` for an instruction that has no meaning yet: none here. Safe. -/
  | notModelled (mnemonic : String)
  /-- Raised by `risingEdge` for a request before the first reset: "a model gives no meaning to requests before the first
  reset" (93_implementation_defined.md I2; R121). Safe (log 3). -/
  | beforeFirstReset
  /-- Raised by `hostStep` at an edge with non-binary inputs: "A model refuses a request whose inputs are not binary"
  (92_eei_decisions.md D27, I3). Safe (log 6). -/
  | inputsNotBinary
  deriving DecidableEq, Repr

/-- The state right after reset (R30, R120), with no event pending (log 1). -/
def State.reset : State where
  acc := 0x00000000#32
  odd := false
  rsp := false
  err := false
  rdata := 0x00000000#32
  phase := .running
  draws := 0
  events := []

end Sys2Proof.Machine
end

