-- ==== Sys2Proof/Machine/Flags.lean ====
section
/-!
DEFINITION. The engine's one flag, ODD (10_state.md R22), and what it selects in FeedByte (40_data_feed.md R80).
-/
namespace Sys2Proof.Machine

/-- ODD <- 1 - ODD (R80). -/
def flipOdd (odd : Bool) : Bool := !odd

/-- What a byte adds to ACC (R80): at ODD = 0 it is the high byte of a new word, at ODD = 1 the low byte of the current one. -/
def contribution (odd : Bool) (b : Byte) : Word :=
  if odd then b.setWidth 32 else b.setWidth 32 <<< 8

end Sys2Proof.Machine
end

