-- ==== Sys2Proof/Machine/Operands.lean ====
section
/-!
DEFINITION. The operand forms: the fields of WDATA (10_state.md R25, R28; 20_memory.md R45, R46) and the values that the readable
registers show (R26, R27, R29).
-/
namespace Sys2Proof.Machine

/-- DATA.BYTE: the byte a 1-byte write feeds, WDATA[7:0] (R25, R45). -/
def dataBytes8 (w : Word) : List Byte := [w.extractLsb' 0 8]

/-- DATA.HALF: the bytes a 2-byte write feeds, WDATA[15:8] first (R25, R46). -/
def dataBytes16 (w : Word) : List Byte := [w.extractLsb' 8 8, w.extractLsb' 0 8]

/-- DATA.WORD: the bytes a 4-byte write feeds, WDATA[31:24] first (R25, R46). -/
def dataBytes32 (w : Word) : List Byte :=
  [w.extractLsb' 24 8, w.extractLsb' 16 8, w.extractLsb' 8 8, w.extractLsb' 0 8]

/-- CTRL.CLEAR: WDATA[0] (R28). -/
def ctrlClear (w : Word) : Bool := w.getLsbD 0

/-- RESULT as read: {0, ~fold16(ACC)} (R26). -/
def resultValue (s : State) : Word := (~~~fold16 s.acc).setWidth 32

/-- SUM as read: {0, fold16(ACC)} (R27). -/
def sumValue (s : State) : Word := (fold16 s.acc).setWidth 32

/-- STATUS as read: {0, ODD} (R29). -/
def statusValue (s : State) : Word := (BitVec.ofBool s.odd).setWidth 32

end Sys2Proof.Machine
end

