-- ==== Sys2Proof/Machine/Ops.lean ====
section
/-!
DEFINITION. The shared operations on State: feeding, clearing, responding, the BusError response (the engine's one exception),
reset, and the loss of the state.
-/
namespace Sys2Proof.Machine

/-! ### The stream -/

/-- FeedByte(b) (40_data_feed.md R80). -/
def feedByte (s : State) (b : Byte) : State :=
  { s with acc := eac32 s.acc (contribution s.odd b), odd := flipOdd s.odd }

/-- Several bytes in feed order, each seeing the ACC and ODD the previous one left (R80). -/
def feedBytes (s : State) (bs : List Byte) : State := bs.foldl feedByte s

/-- CLEAR: ACC <- 0 and ODD <- 0 (41_control_status.md R90). -/
def clearStream (s : State) : State := { s with acc := 0x00000000#32, odd := false }

/-! ### Responses (20_memory.md R40, R47) -/

/-- The response of an accepted request without an error: rsp = 1, err = 0, and its read data. -/
def respond (s : State) (rdata : Word) : State := { s with rsp := true, err := false, rdata := rdata }

/-- No request at this edge: rsp, err and rdata are 0 (R40, R94). -/
def noResponse (s : State) : State := { s with rsp := false, err := false, rdata := 0x00000000#32 }

/-! ### BusError, the engine's exception (60_exceptions.md R101 to R105)

It has an entry, the error response of R102, and no return: nothing was entered (R104, R105). -/

/-- The causes of R101. They are labels: no register holds them (R101, I10; log 11). -/
inductive BusErrorCause where
  | misaligned
  | unmapped
  | direction
  | size
  deriving DecidableEq, Repr

/-- The code of a cause (R101). -/
def causeCode : BusErrorCause → Nat
  | .misaligned => 1
  | .unmapped => 2
  | .direction => 3
  | .size => 4

/-- The bytes of a size code (30_encoding.md R61); none for the reserved code. -/
def sizeBytes (size : BitVec 2) : Option Nat :=
  if size = 0b00#2 then some 1
  else if size = 0b01#2 then some 2
  else if size = 0b10#2 then some 4
  else none

/-- The offsets of the write-only registers, DATA and CTRL (20_memory.md R42). -/
def writeOnlyOffset (addr : BitVec 5) : Bool := addr == 0x00#5 || addr == 0x0C#5

/-- The offsets of the read-only registers, RESULT, SUM and STATUS (R42). -/
def readOnlyOffset (addr : BitVec 5) : Bool := addr == 0x04#5 || addr == 0x08#5 || addr == 0x10#5

/-- The first cause that holds for a request, in the order of R103; none for a legal request. -/
def busErrorCause (we : Bool) (size : BitVec 2) (addr : BitVec 5) : Option BusErrorCause :=
  if addr.extractLsb' 0 2 ≠ 0b00#2 then some .misaligned
  else if !writeOnlyOffset addr && !readOnlyOffset addr then some .unmapped
  else if (writeOnlyOffset addr && !we) || (readOnlyOffset addr && we) then some .direction
  else match sizeBytes size with
    | none => some .size
    | some n => if n = 4 ∨ addr = 0x00#5 then none else some .size

/-- `raise BusError(cause)`: rsp = 1, err = 1, rdata = 0, ACC and ODD not written (R102). -/
def raiseBusError (s : State) : State := { s with rsp := true, err := true, rdata := 0x00000000#32 }

/-! ### Reset and the loss of the state -/

/-- Reset (70_reset_and_hazards.md R120): the five pieces of state at their values of R30, and from then on a reset has
occurred. What the host does next, and the numbering of the free values, are not the engine's to reset. -/
def resetEngine (s : State) : State :=
  { s with acc := 0x00000000#32, odd := false, rsp := false, err := false, rdata := 0x00000000#32, phase := .running }

/-- The state is unspecified until the next reset (R121, R111): each piece is a free value (log 3). -/
def unspecify (s : State) : State :=
  { s with
    acc := Config.freeAcc s.draws
    odd := Config.freeOdd s.draws
    rsp := Config.freeRsp s.draws
    err := Config.freeErr s.draws
    rdata := Config.freeRdata s.draws
    phase := .unreset
    draws := s.draws + 1 }

end Sys2Proof.Machine
end

