-- ==== Sys2Proof/Machine/BusError.lean ====
section
/-!
DEFINITION. BUSERR (60_exceptions.md R102): the response to every illegal request. The request's fields decide only which cause it
has (`busErrorCause`, R103), and the host sees err = 1 alone (R101), so the next state does not depend on them.
-/
namespace Sys2Proof.Machine

/-- BUSERR (R102): takes the BusError exception. -/
def execBusErr (_we : Bool) (_size : BitVec 2) (_addr : BitVec 5) (s : State) : Host.Outcome State Fault Refusal :=
  .next (raiseBusError s)

end Sys2Proof.Machine
end

