-- ==== Sys2Proof/Machine/ControlStatus.lean ====
section
/-!
DEFINITION. The control and status family (41_control_status.md): WRCTRL, RDRESULT, RDSUM, RDSTATUS, IDLE.
-/
namespace Sys2Proof.Machine

/-- WRCTRL (R90): CLEAR if WDATA[0] = 1; WDATA[31:1] ignored; rdata = 0, err = 0. -/
def execWrCtrl (wdata : Word) (s : State) : Host.Outcome State Fault Refusal :=
  .next (respond (if ctrlClear wdata then clearStream s else s) 0x00000000#32)

/-- RDRESULT (R91): rdata <- zext(~fold16(ACC)). -/
def execRdResult (s : State) : Host.Outcome State Fault Refusal := .next (respond s (resultValue s))

/-- RDSUM (R92): rdata <- zext(fold16(ACC)). -/
def execRdSum (s : State) : Host.Outcome State Fault Refusal := .next (respond s (sumValue s))

/-- RDSTATUS (R93): rdata <- zext(ODD). -/
def execRdStatus (s : State) : Host.Outcome State Fault Refusal := .next (respond s (statusValue s))

/-- IDLE (R94, R63): no request and no response; ACC and ODD unchanged. -/
def execIdle (s : State) : Host.Outcome State Fault Refusal := .next (noResponse s)

end Sys2Proof.Machine
end

