-- ==== Sys2Proof/Machine/DataFeed.lean ====
section
/-!
DEFINITION. The data feed family (40_data_feed.md): WRDATA8, WRDATA16, WRDATA32. Each feeds its bytes in one step (20_memory.md R49)
and responds with rdata = 0, err = 0.
-/
namespace Sys2Proof.Machine

/-- WRDATA8 (R81): FeedByte(WDATA[7:0]). -/
def execWrData8 (wdata : Word) (s : State) : Host.Outcome State Fault Refusal :=
  .next (respond (feedBytes s (dataBytes8 wdata)) 0x00000000#32)

/-- WRDATA16 (R82): FeedByte(WDATA[15:8]), FeedByte(WDATA[7:0]). -/
def execWrData16 (wdata : Word) (s : State) : Host.Outcome State Fault Refusal :=
  .next (respond (feedBytes s (dataBytes16 wdata)) 0x00000000#32)

/-- WRDATA32 (R83): FeedByte of WDATA[31:24], WDATA[23:16], WDATA[15:8], WDATA[7:0]. -/
def execWrData32 (wdata : Word) (s : State) : Host.Outcome State Fault Refusal :=
  .next (respond (feedBytes s (dataBytes32 wdata)) 0x00000000#32)

end Sys2Proof.Machine
end

