-- ==== Sys2Proof/Machine/Dispatch.lean ====
section
/-!
DEFINITION. One arm per row of spec/opcode_table.json, each a call of that operation's meaning.
-/
namespace Sys2Proof.Machine

/-- The meaning of one accepted request, or of the cycle with none (00_scope.md R14). -/
def exec (i : Instr) (s : State) : Host.Outcome State Fault Refusal :=
  match i with
  | .idle => Sys2Proof.Machine.execIdle s
  | .wrData8 wdata => Sys2Proof.Machine.execWrData8 wdata s
  | .wrData16 wdata => Sys2Proof.Machine.execWrData16 wdata s
  | .wrData32 wdata => Sys2Proof.Machine.execWrData32 wdata s
  | .wrCtrl wdata => Sys2Proof.Machine.execWrCtrl wdata s
  | .rdResult => Sys2Proof.Machine.execRdResult s
  | .rdSum => Sys2Proof.Machine.execRdSum s
  | .rdStatus => Sys2Proof.Machine.execRdStatus s
  | .busErr we size addr => Sys2Proof.Machine.execBusErr we size addr s

end Sys2Proof.Machine
end

