-- ==== Sys2Proof/Machine/Clock.lean ====
section
/-!
DEFINITION. What a rising edge of clk does (20_memory.md R40), what the other host events do, and which event comes next.
-/
namespace Sys2Proof.Machine

/-- The request on the ports (30_encoding.md R60). -/
def PortInputs.request (p : PortInputs) : Request := ⟨mkReq p.req p.we p.size p.addr, p.wdata⟩

/-- The ports with this request presented and rst = 0. -/
def PortInputs.ofRequest (q : Request) : PortInputs where
  rst := false
  req := q.req.getLsbD 8
  we := reqWe q.req
  size := reqSize q.req
  addr := reqAddr q.req
  wdata := q.wdata

/-- The ports of a host that presents nothing. -/
def PortInputs.quiet : PortInputs := .ofRequest ⟨0x000#9, 0#32⟩

/-- The instruction on the ports (R62). -/
def PortInputs.instr (p : PortInputs) : Instr := p.request.decode

/-- The host's next event. A host with nothing left to do presents no request: DESIGN CHOICE (log 2). -/
def nextEvent (s : State) : HostEvent := s.events.headD (.edge .quiet)

/-- The state with the host's next event taken off the list. -/
def takeEvent (s : State) : State := { s with events := s.events.tail }

/-- A rising edge of clk (R40): reset wins whatever the other inputs hold (R120); else the request or the idle cycle on the ports
is carried out. Before the first reset a request is refused (I2) and a cycle without one leaves everything unspecified (R121). -/
def risingEdge (p : PortInputs) (s : State) : Host.Outcome State Fault Refusal :=
  if p.rst then .next (resetEngine s)
  else match s.phase with
    | .running => exec p.instr s
    | .unreset => if p.req then .refused .beforeFirstReset else .next (unspecify s)

/-- With clk stopped nothing changes (60_exceptions.md R111, R40; log 5); before the first reset everything stays
unspecified (R121). -/
def clockStopped (s : State) : State :=
  match s.phase with
  | .running => s
  | .unreset => unspecify s

/-- What one host event does (log 1). -/
def hostStep (e : HostEvent) (s : State) : Host.Outcome State Fault Refusal :=
  match e with
  | .edge p => risingEdge p s
  | .edgeNotBinary => .refused .inputsNotBinary
  | .clkStopped => .next (clockStopped s)
  | .powerLoss => .next (unspecify s)

/-- The state whose very next step is an edge with this request on the ports (logs 7 and 8). -/
def presentRequest (s : State) (q : Request) : State :=
  { s with phase := .running, events := .edge (.ofRequest q) :: s.events }

end Sys2Proof.Machine
end

