-- ==== Sys2Proof/Machine/Step.lean ====
section
/-!
DEFINITION. One step of the machine, and the host's tool for running one table word.
-/
namespace Sys2Proof.Machine

/-- One step: the host's next event happens to the engine (logs 1 and 2). -/
def step (s : State) : Host.Outcome State Fault Refusal := hostStep (nextEvent s) (takeEvent s)

/-- `s` with the request that the numeral stands for (log 7) presented at the very next edge; a numeral that is no request
changes nothing. -/
def State.withFetchWord (s : State) (nbits w : Nat) : State :=
  match Request.ofBits (w % 2 ^ nbits) with
  | .ok q => presentRequest s q
  | .error _ => s

end Sys2Proof.Machine
end

