-- ==== Sys2Proof/Machine/Assembler.lean ====
section
/-!
DEFINITION. The assembler syntax of 30_encoding.md R67 and the pseudo-instructions of R68: their abstract form, what they assemble to,
and a reader of one line of text (log 15).
-/
namespace Sys2Proof.Machine

/-! ### Requests (R67) -/

/-- The syntax rows of R67. -/
inductive AsmRequest where
  | wrD8 (imm : Nat)
  | wrD16 (imm : Nat)
  | wrD32 (imm : Nat)
  | wrCtrl (imm : Nat)
  | rdResult
  | rdSum
  | rdStatus
  | idle
  | rawWr (size off imm : Nat)
  | rawRd (size off : Nat)
  deriving DecidableEq, Repr

/-- The REQ and WDATA of a syntax row; none where its constraint fails and the assembler refuses it (R67). -/
def assembleRequest : AsmRequest → Option Request
  | .wrD8 imm => if imm < 2 ^ 8 then some ⟨0x180#9, BitVec.ofNat 32 imm⟩ else none
  | .wrD16 imm => if imm < 2 ^ 16 then some ⟨0x1A0#9, BitVec.ofNat 32 imm⟩ else none
  | .wrD32 imm => if imm < 2 ^ 32 then some ⟨0x1C0#9, BitVec.ofNat 32 imm⟩ else none
  | .wrCtrl imm => if imm < 2 ^ 32 then some ⟨0x1CC#9, BitVec.ofNat 32 imm⟩ else none
  | .rdResult => some ⟨0x144#9, 0#32⟩
  | .rdSum => some ⟨0x148#9, 0#32⟩
  | .rdStatus => some ⟨0x150#9, 0#32⟩
  | .idle => some ⟨0x000#9, 0#32⟩
  | .rawWr size off imm =>
    if size < 4 ∧ off < 32 ∧ imm < 2 ^ 32 then
      some ⟨mkReq true true (BitVec.ofNat 2 size) (BitVec.ofNat 5 off), BitVec.ofNat 32 imm⟩
    else none
  | .rawRd size off =>
    if size < 4 ∧ off < 32 then some ⟨mkReq true false (BitVec.ofNat 2 size) (BitVec.ofNat 5 off), 0#32⟩ else none

/-! ### Pseudo-instructions (R68) -/

/-- `clear` = `wr.ctrl 0x00000001`. -/
def clearRequest : Request := ⟨0x1CC#9, 0x00000001#32⟩

/-- `feed b0 …`: a `wr.d32` for each complete group of four bytes, then a `wr.d16` if two or three remain, then a `wr.d8` if one
remains (R68). -/
def feedRequests : List Byte → List Request
  | b0 :: b1 :: b2 :: b3 :: rest => ⟨0x1C0#9, b0 ++ b1 ++ b2 ++ b3⟩ :: feedRequests rest
  | [b0, b1, b2] => [⟨0x1A0#9, (b0 ++ b1).setWidth 32⟩, ⟨0x180#9, b2.setWidth 32⟩]
  | [b0, b1] => [⟨0x1A0#9, (b0 ++ b1).setWidth 32⟩]
  | [b0] => [⟨0x180#9, b0.setWidth 32⟩]
  | [] => []

/-- `cksum b0 …`: `clear`, `feed b0 …`, `rd.result` (R68). -/
def cksumRequests (B : List Byte) : List Request := clearRequest :: feedRequests B ++ [⟨0x144#9, 0#32⟩]

/-- One line of a program. -/
inductive AsmLine where
  | request (r : AsmRequest)
  | nop
  | clear
  | feed (bytes : List Byte)
  | cksum (bytes : List Byte)
  deriving DecidableEq, Repr

/-- The requests of a line (R67, R68). -/
def assembleLine : AsmLine → Option (List Request)
  | .request r => (assembleRequest r).map ([·])
  | .nop => (assembleRequest .idle).map ([·])
  | .clear => some [clearRequest]
  | .feed bytes => some (feedRequests bytes)
  | .cksum bytes => some (cksumRequests bytes)

/-- The requests of a program, in order. -/
def assembleLines : List AsmLine → Option (List Request)
  | [] => some []
  | l :: ls =>
    match assembleLine l, assembleLines ls with
    | some q, some qs => some (q ++ qs)
    | _, _ => none

/-- A program as the host plays it: one edge for each request (R66). -/
def edgesOf (qs : List Request) : List HostEvent := qs.map fun q => .edge (.ofRequest q)

/-! ### Reading a line of text (R67; log 15) -/

/-- A line of text as read: what it asks for, if anything, and the read data that a `-> v` records. -/
structure SourceLine where
  line : Option AsmLine
  records : Option Nat
  deriving DecidableEq, Repr

/-- The value of a digit in a base up to 16. -/
def digitValue (base : Nat) (c : Char) : Option Nat :=
  let n := c.toNat
  let v := if 48 ≤ n ∧ n ≤ 57 then n - 48
    else if 97 ≤ n ∧ n ≤ 102 then n - 87
    else if 65 ≤ n ∧ n ≤ 70 then n - 55
    else 16
  if v < base then some v else none

/-- Digits after those already read as `acc`. -/
def digitsValue (base : Nat) : Nat → List Char → Option Nat
  | acc, [] => some acc
  | acc, c :: cs =>
    match digitValue base c with
    | some v => digitsValue base (acc * base + v) cs
    | none => none

/-- A number: `0x` and hexadecimal digits, or decimal digits (R67). -/
def numberValue : List Char → Option Nat
  | '0' :: 'x' :: c :: cs => digitsValue 16 0 (c :: cs)
  | c :: cs => digitsValue 10 0 (c :: cs)
  | [] => none

/-- The words of a line: blanks end a word, a comma is a word of its own, and `;` starts a comment (R67). -/
def lineWords : List Char → List Char → List (List Char)
  | word, [] => if word.isEmpty then [] else [word.reverse]
  | word, c :: cs =>
    let done := if word.isEmpty then [] else [word.reverse]
    if c = ';' then done
    else if c = ' ' ∨ c = '\t' then done ++ lineWords [] cs
    else if c = ',' then done ++ [','] :: lineWords [] cs
    else lineWords (c :: word) cs

/-- The number that a byte of `feed` or `cksum` is written as. DESIGN CHOICE (log 17): a word of exactly two hexadecimal digits is
a byte of a byte string (00_scope.md R6; the worked example of 41_control_status.md R91 writes `feed 45 00 00 3C …`), so `45` is 0x45;
every other word is a number of R67. -/
def byteNumber : List Char → Option Nat
  | [hi, lo] => digitsValue 16 0 [hi, lo]
  | w => numberValue w

/-- A byte value of `feed` and `cksum`, below 2^8 (R68), written as `byteNumber` reads it (log 17). -/
def byteValue (w : List Char) : Option Byte :=
  match byteNumber w with
  | some n => if n < 2 ^ 8 then some (BitVec.ofNat 8 n) else none
  | none => none

/-- The byte values that follow `feed` or `cksum` (R68). -/
def byteValues : List (List Char) → Option (List Byte)
  | [] => some []
  | w :: ws =>
    match byteValue w, byteValues ws with
    | some b, some bs => some (b :: bs)
    | _, _ => none

/-- A read and the words after it: nothing, or `-> v` (R67). -/
def readLine (r : AsmRequest) : List (List Char) → Option SourceLine
  | [] => some ⟨some (.request r), none⟩
  | [['-', '>'], v] => (numberValue v).map fun n => ⟨some (.request r), some n⟩
  | _ => none

/-- A write of one number. -/
def writeLine (f : Nat → AsmRequest) : List (List Char) → Option SourceLine
  | [imm] => (numberValue imm).map fun n => ⟨some (.request (f n)), none⟩
  | _ => none

/-- `raw.wr size, off, imm`. -/
def rawWrLine : List (List Char) → Option SourceLine
  | [size, [','], off, [','], imm] =>
    match numberValue size, numberValue off, numberValue imm with
    | some s, some o, some i => some ⟨some (.request (.rawWr s o i)), none⟩
    | _, _, _ => none
  | _ => none

/-- `raw.rd size, off`, and perhaps `-> v`. -/
def rawRdLine : List (List Char) → Option SourceLine
  | size :: [','] :: off :: rest =>
    match numberValue size, numberValue off with
    | some s, some o => readLine (.rawRd s o) rest
    | _, _ => none
  | _ => none

/-- A line with no operand. -/
def bareLine (l : AsmLine) : List (List Char) → Option SourceLine
  | [] => some ⟨some l, none⟩
  | _ => none

/-- The line that a mnemonic and its words ask for (R67, R68). -/
def mnemonicLine (m : List Char) (ws : List (List Char)) : Option SourceLine :=
  if m = ['w', 'r', '.', 'd', '8'] then writeLine .wrD8 ws
  else if m = ['w', 'r', '.', 'd', '1', '6'] then writeLine .wrD16 ws
  else if m = ['w', 'r', '.', 'd', '3', '2'] then writeLine .wrD32 ws
  else if m = ['w', 'r', '.', 'c', 't', 'r', 'l'] then writeLine .wrCtrl ws
  else if m = ['r', 'd', '.', 'r', 'e', 's', 'u', 'l', 't'] then readLine .rdResult ws
  else if m = ['r', 'd', '.', 's', 'u', 'm'] then readLine .rdSum ws
  else if m = ['r', 'd', '.', 's', 't', 'a', 't', 'u', 's'] then readLine .rdStatus ws
  else if m = ['i', 'd', 'l', 'e'] then bareLine (.request .idle) ws
  else if m = ['r', 'a', 'w', '.', 'w', 'r'] then rawWrLine ws
  else if m = ['r', 'a', 'w', '.', 'r', 'd'] then rawRdLine ws
  else if m = ['n', 'o', 'p'] then bareLine .nop ws
  else if m = ['c', 'l', 'e', 'a', 'r'] then bareLine .clear ws
  else if m = ['f', 'e', 'e', 'd'] then (byteValues ws).map fun bs => ⟨some (.feed bs), none⟩
  else if m = ['c', 'k', 's', 'u', 'm'] then (byteValues ws).map fun bs => ⟨some (.cksum bs), none⟩
  else none

/-- One line of text (R67); none where it is no line of the syntax. -/
def parseLine (text : List Char) : Option SourceLine :=
  match lineWords [] text with
  | [] => some ⟨none, none⟩
  | m :: ws => mnemonicLine m ws

end Sys2Proof.Machine
end

