-- ==== Sys2Proof/Machine/HostProtocol.lean ====
section
/-!
DEFINITION. The host's protocol (70_reset_and_hazards.md R124, R126): the IPv4 header it feeds, and where it puts the result.
-/
namespace Sys2Proof.Machine

/-- A 16-bit field, high byte first (R124). -/
def networkOrder16 (x : Half) : List Byte := [x.extractLsb' 8 8, x.extractLsb' 0 8]

/-- A 32-bit field, high byte first (R124: network order). -/
def networkOrder32 (x : Word) : List Byte :=
  [x.extractLsb' 24 8, x.extractLsb' 16 8, x.extractLsb' 8 8, x.extractLsb' 0 8]

/-- The 20-byte IPv4 header of R124 for a payload of n bytes, with HeaderChecksum 00 00. -/
def ipv4Header (n : Nat) (identification : Half) (source : Word) : List Byte :=
  [0x45#8, 0xC0#8] ++ networkOrder16 (BitVec.ofNat 16 (20 + n)) ++ networkOrder16 identification ++ [0x00#8, 0x00#8]
    ++ [0x01#8, 0x59#8] ++ [0x00#8, 0x00#8] ++ networkOrder32 source ++ [0xE0#8, 0x00#8, 0x00#8, 0x05#8]

/-- Placing the read data of a RESULT read into a checksum field at offset f: RESULT[15:8] into the lower-offset byte, RESULT[7:0]
into the next (R126, 20_memory.md R54). -/
def placeResult (B : List Byte) (f : Nat) (rdata : Word) : List Byte :=
  (B.set f (rdata.extractLsb' 8 8)).set (f + 1) (rdata.extractLsb' 0 8)

/-- The offset of HeaderChecksum in the header (R124). -/
def headerChecksumOffset : Nat := 10

end Sys2Proof.Machine
end

