-- ==== Sys2Proof/Machine/HostView.lean ====
section
/-!
DEFINITION. The host's view of the window (00_scope.md R7, 20_memory.md R41): an access of n bytes at BASE + addr. The engine does not
see BASE; the platform's decoding of it is these functions.
-/
namespace Sys2Proof.Machine

/-- The size code of an access of n bytes (30_encoding.md R61); none for a width that no code stands for. -/
def sizeCode (n : Nat) : Option (BitVec 2) :=
  if n = 1 then some 0b00#2
  else if n = 2 then some 0b01#2
  else if n = 4 then some 0b10#2
  else none

/-- The offset of a host address in the window; none outside it (R41). -/
def windowOffset (c : Config) (a : Nat) : Option (BitVec 5) :=
  if c.base ≤ a ∧ a < c.base + Config.windowBytes then some (BitVec.ofNat 5 (a - c.base)) else none

/-- An access of n bytes at host address a; none where it is none of this window's accesses. -/
def memAccess (c : Config) (we : Bool) (a n : Nat) (v : Word) : Option Request :=
  match windowOffset c a, sizeCode n with
  | some addr, some size => some ⟨mkReq true we size addr, v⟩
  | _, _ => none

/-- MemWrite(a, n, v) (R7). -/
def memWrite (c : Config) (a n : Nat) (v : Word) : Option Request := memAccess c true a n v

/-- MemRead(a, n) (R7). -/
def memRead (c : Config) (a n : Nat) : Option Request := memAccess c false a n 0#32

end Sys2Proof.Machine
end

