-- ==== Sys2Proof/Machine/Reference.lean ====
section
/-!
DEFINITION. The reference function Checksum(B) (00_scope.md R8) and what the state means in its terms (10_state.md R23, R24). The engine
never calls these; claims hold it to them.
-/
namespace Sys2Proof.Machine

/-! ### Checksum(B) (R8) -/

/-- Word(B, k): bytes 2k and 2k+1 of the buffer, the first one high; a missing low byte is 0x00 (R8). -/
def bufferWord (B : List Byte) (k : Nat) : Half :=
  B.getD (2 * k) 0x00#8 ++ (if 2 * k + 1 < B.length then B.getD (2 * k + 1) 0x00#8 else 0x00#8)

/-- Total(B): the sum of Word(B, k) for 0 <= k < ceil(m/2), unbounded (R8). -/
def total (B : List Byte) : Nat := ((List.range ((B.length + 1) / 2)).map fun k => (bufferWord B k).toNat).sum

/-- The loop of Fold, at most `fuel` times (R8). -/
def foldLoop : Nat → Nat → Nat
  | 0, T => T
  | fuel + 1, T => if 2 ^ 16 ≤ T then foldLoop fuel (T % 2 ^ 16 + T / 2 ^ 16) else T

/-- Fold(T) (R8). Each turn of the loop makes T smaller, so T turns are always enough (`Laws/Reference.lean`, `fold_eq`). -/
def fold (T : Nat) : Nat := foldLoop T T

/-- Checksum(B) = ~Fold(Total(B)) (R8). -/
def checksum (B : List Byte) : Half := ~~~BitVec.ofNat 16 (fold (total B))

/-- B^s: the two bytes of every pair exchanged (00_scope.md R13); a trailing byte stays. -/
def swapPairs : List Byte → List Byte
  | a :: b :: B => b :: a :: swapPairs B
  | [a] => [a]
  | [] => []

/-! ### What the state means (R23, R24) -/

/-- What end-around-carry addition at `n` bits keeps of a number (00_scope.md R10). -/
def eacResidue (n T : Nat) : Nat := if T = 0 then 0 else 1 + (T - 1) % (2 ^ n - 1)

/-- The stream S = s_0 … is what ACC and ODD stand for (R23): ACC is the end-around residue of Total(S) at 32 bits and ODD is the
length of S mod 2. -/
def tracks (S : List Byte) (s : State) : Prop :=
  s.acc.toNat = eacResidue 32 (total S) ∧ s.odd = decide (S.length % 2 = 1)

/-- The stream after an operation (R24): a DATA write extends it with the bytes it feeds, in feed order; CLEAR empties it; nothing
else changes it. -/
def streamAfter (i : Instr) (S : List Byte) : List Byte :=
  match i with
  | .idle => S
  | .wrData8 w => S ++ dataBytes8 w
  | .wrData16 w => S ++ dataBytes16 w
  | .wrData32 w => S ++ dataBytes32 w
  | .wrCtrl w => if ctrlClear w then [] else S
  | .rdResult => S
  | .rdSum => S
  | .rdStatus => S
  | .busErr _ _ _ => S

end Sys2Proof.Machine
end

