-- ==== Sys2Proof/Safety.lean ====
section
/-!
DEFINITION. The terms claims use: what a host can observe of a run, host errors, and what the output ports always look like.
-/
namespace Sys2Proof.Machine

/-- A response as the host sees it (70_reset_and_hazards.md R128): err and rdata in a cycle with rsp = 1. -/
structure Response where
  err : Bool
  rdata : Word
  deriving DecidableEq, Repr

/-- The response on the output ports, if there is one (20_memory.md R40). -/
def responseOf (s : State) : Option Response := if s.rsp then some ⟨s.err, s.rdata⟩ else none

/-- What the host sees of up to `k` steps: after each step, the response if there is one; the list ends where a step has no
next state. With clk stopped rsp holds (log 5), so a response that stands is listed again at each such step, where R128 lists one
response for each request: DESIGN CHOICE (log 18). -/
def observed : Nat → State → List (Option Response)
  | 0, _ => []
  | k + 1, s =>
    match step s with
    | .next t => responseOf t :: observed k t
    | .fault _ => []
    | .refused _ => []

/-- The cause of an instruction's BusError (60_exceptions.md R101): a host-program error (93_implementation_defined.md I4, I5).
None for a legal request and for IDLE. -/
def instrCause : Instr → Option BusErrorCause
  | .idle => none
  | .wrData8 _ => none
  | .wrData16 _ => none
  | .wrData32 _ => none
  | .wrCtrl _ => none
  | .rdResult => none
  | .rdSum => none
  | .rdStatus => none
  | .busErr we size addr => busErrorCause we size addr

/-- The output ports once a reset has occurred: without a response err and rdata are 0, with an error rdata is 0, and no read data
reaches above bit 15 (20_memory.md R40, R47; 10_state.md R26, R27, R29). -/
def outputsSettled (s : State) : Prop :=
  s.phase = .running →
    (s.rsp = false → s.err = false ∧ s.rdata = 0#32) ∧
    (s.err = true → s.rsp = true ∧ s.rdata = 0#32) ∧
    s.rdata.extractLsb' 16 16 = 0#16

/-- Two states that differ at most in what ACC hides: fold16(ACC) and every other piece are equal (10_state.md R23, R31). -/
def sameButHiddenAcc (s t : State) : Prop :=
  fold16 s.acc = fold16 t.acc ∧ s = { t with acc := s.acc }

/-- The stream after a step's event (10_state.md R24): reset empties it, a request at an edge with rst = 0 acts on it, and nothing
else does. -/
def streamAfterEvent (e : HostEvent) (S : List Byte) : List Byte :=
  match e with
  | .edge p => if p.rst then [] else streamAfter p.instr S
  | .edgeNotBinary => S
  | .clkStopped => S
  | .powerLoss => S

end Sys2Proof.Machine
end

