-- ==== Sys2Proof/Certificates/Slice0/Obligations.lean ====
section
/-!
DEFINITION. The statements for the provers, from the numbered rules of spec/.
In every statement about a next state, `{ s with … }` says the frame too: every piece of state that it does not name is as it was.
The fields phase, draws and events are the model's own (logs 1 and 3).
-/

open Sys2Proof Sys2Proof.Machine

/-! ### Encoding -/

/-- Words written out bit by bit from the patterns of R62, each with the operation it stands for. -/
def Obligations.WrittenOutWordsDecode : Prop :=
  decode 0b0_0_00_00000#9 0xFFFFFFFF#32 = .idle ∧
  decode 0b0_1_10_01100#9 0x00000001#32 = .idle ∧
  decode 0b1_1_00_00000#9 0x000000AB#32 = .wrData8 0x000000AB#32 ∧
  decode 0b1_1_01_00000#9 0x0000ABCD#32 = .wrData16 0x0000ABCD#32 ∧
  decode 0b1_1_10_00000#9 0x4500003C#32 = .wrData32 0x4500003C#32 ∧
  decode 0b1_1_10_01100#9 0x00000001#32 = .wrCtrl 0x00000001#32 ∧
  decode 0b1_0_10_00100#9 0x00000000#32 = .rdResult ∧
  decode 0b1_0_10_01000#9 0x00000000#32 = .rdSum ∧
  decode 0b1_0_10_10000#9 0x00000000#32 = .rdStatus ∧
  decode 0b1_1_00_01100#9 0x00000001#32 = .busErr true 0b00#2 0b01100#5 ∧
  decode 0b1_0_11_10100#9 0x00000000#32 = .busErr false 0b11#2 0b10100#5

/-- R62: the opcode map row by row, and how many of the 512 REQ values fall under IDLE (256), BUSERR (249) and the legal rows (7). -/
def Obligations.OpcodeMapFirstMatchWins : Prop :=
  (∀ (r : ReqVec) (w : Word),
    decode r w =
      if r &&& 0x100#9 = 0x000#9 then .idle
      else if r = 0x180#9 then .wrData8 w
      else if r = 0x1A0#9 then .wrData16 w
      else if r = 0x1C0#9 then .wrData32 w
      else if r = 0x1CC#9 then .wrCtrl w
      else if r = 0x144#9 then .rdResult
      else if r = 0x148#9 then .rdSum
      else if r = 0x150#9 then .rdStatus
      else .busErr (r.getLsbD 7) (r.extractLsb' 5 2) (r.extractLsb' 0 5)) ∧
  (List.range 512).countP (fun n => firstMatch (BitVec.ofNat 9 n) == .idle) = 256 ∧
  (List.range 512).countP (fun n => firstMatch (BitVec.ofNat 9 n) == .busErr) = 249 ∧
  (List.range 512).countP
    (fun n => firstMatch (BitVec.ofNat 9 n) != .idle && firstMatch (BitVec.ofNat 9 n) != .busErr) = 7

/-- Decode and encode agree: every well-formed operation is what its encoding decodes to, at every value of its operands. -/
def Obligations.DecodeOfEncodeIsTheInstruction : Prop :=
  ∀ i : Instr, i.wf = true → (encode i).decode = i

/-- The other direction: whatever stands on the ports decodes to a well-formed operation, and nothing of the request that is not
ignored is lost: of a request with req = 1 all of REQ, and of a legal write all of WDATA (R60, R65). The operation a REQ
decodes to does not depend on WDATA beyond carrying it (R66). -/
def Obligations.EncodeOfDecodeKeepsWhatIsUsed : Prop :=
  ∀ (r : ReqVec) (w w' : Word),
    (decode r w).wf = true ∧
    (r.getLsbD 8 = true → (encode (decode r w)).req = r) ∧
    (r.getLsbD 8 = false → decode r w = .idle) ∧
    (r = 0x180#9 ∨ r = 0x1A0#9 ∨ r = 0x1C0#9 ∨ r = 0x1CC#9 → (encode (decode r w)).wdata = w) ∧
    (encode (decode r w)).req = (encode (decode r w')).req

/-- R42, R43, R44: a request with req = 1 is a BUSERR exactly when the register map has no such access. -/
def Obligations.LegalRequestsAreTheRegisterMap : Prop :=
  ∀ (we : Bool) (size : BitVec 2) (addr : BitVec 5) (w : Word),
    decode (mkReq true we size addr) w = .busErr we size addr ↔
      ¬ ((addr = 0x00#5 ∧ we = true ∧ size ≠ 0b11#2) ∨
         (addr = 0x0C#5 ∧ we = true ∧ size = 0b10#2) ∨
         ((addr = 0x04#5 ∨ addr = 0x08#5 ∨ addr = 0x10#5) ∧ we = false ∧ size = 0b10#2))

/-- R101, R103: a BUSERR has a cause and a legal request has none; the cause is the first of R103's list that holds, and its code
is R101's. -/
def Obligations.BusErrorCauseIsTheFirstThatHolds : Prop :=
  ∀ (we : Bool) (size : BitVec 2) (addr : BitVec 5) (w : Word),
    (decode (mkReq true we size addr) w = .busErr we size addr ↔ ∃ c, busErrorCause we size addr = some c) ∧
    (addr.extractLsb' 0 2 ≠ 0#2 → busErrorCause we size addr = some .misaligned) ∧
    (addr = 0x14#5 ∨ addr = 0x18#5 ∨ addr = 0x1C#5 → busErrorCause we size addr = some .unmapped) ∧
    ((addr = 0x00#5 ∨ addr = 0x0C#5) ∧ we = false → busErrorCause we size addr = some .direction) ∧
    ((addr = 0x04#5 ∨ addr = 0x08#5 ∨ addr = 0x10#5) ∧ we = true → busErrorCause we size addr = some .direction) ∧
    (addr = 0x00#5 ∧ we = true ∧ size = 0b11#2 → busErrorCause we size addr = some .size) ∧
    (addr = 0x0C#5 ∧ we = true ∧ size ≠ 0b10#2 → busErrorCause we size addr = some .size) ∧
    ((addr = 0x04#5 ∨ addr = 0x08#5 ∨ addr = 0x10#5) ∧ we = false ∧ size ≠ 0b10#2 →
      busErrorCause we size addr = some .size) ∧
    causeCode .misaligned = 1 ∧ causeCode .unmapped = 2 ∧ causeCode .direction = 3 ∧ causeCode .size = 4

/-- R67: what each syntax row assembles to, and what the assembler refuses. -/
def Obligations.AssemblerRows : Prop :=
  (∀ imm : Nat,
    (assembleRequest (.wrD8 imm) = if imm < 2 ^ 8 then some ⟨0x180#9, BitVec.ofNat 32 imm⟩ else none) ∧
    (assembleRequest (.wrD16 imm) = if imm < 2 ^ 16 then some ⟨0x1A0#9, BitVec.ofNat 32 imm⟩ else none) ∧
    (assembleRequest (.wrD32 imm) = if imm < 2 ^ 32 then some ⟨0x1C0#9, BitVec.ofNat 32 imm⟩ else none) ∧
    (assembleRequest (.wrCtrl imm) = if imm < 2 ^ 32 then some ⟨0x1CC#9, BitVec.ofNat 32 imm⟩ else none)) ∧
  assembleRequest .rdResult = some ⟨0x144#9, 0#32⟩ ∧
  assembleRequest .rdSum = some ⟨0x148#9, 0#32⟩ ∧
  assembleRequest .rdStatus = some ⟨0x150#9, 0#32⟩ ∧
  assembleRequest .idle = some ⟨0x000#9, 0#32⟩ ∧
  (∀ (size : BitVec 2) (off : BitVec 5) (imm : Word),
    assembleRequest (.rawWr size.toNat off.toNat imm.toNat) = some ⟨1#1 ++ 1#1 ++ size ++ off, imm⟩ ∧
    assembleRequest (.rawRd size.toNat off.toNat) = some ⟨1#1 ++ 0#1 ++ size ++ off, 0#32⟩) ∧
  ∀ size off imm : Nat,
    (assembleRequest (.rawWr size off imm) = none ↔ 4 ≤ size ∨ 32 ≤ off ∨ 2 ^ 32 ≤ imm) ∧
    (assembleRequest (.rawRd size off) = none ↔ 4 ≤ size ∨ 32 ≤ off)

/-- R68: the expansions of the pseudo-instructions, `feed` by its groups of four bytes and what remains. -/
def Obligations.PseudoExpansions : Prop :=
  assembleLine .nop = some [⟨0x000#9, 0#32⟩] ∧
  assembleLine .clear = some [⟨0x1CC#9, 0x00000001#32⟩] ∧
  (∀ B, assembleLine (.feed B) = some (feedRequests B)) ∧
  (∀ (a b c d : Byte) (B : List Byte),
    feedRequests (a :: b :: c :: d :: B) = ⟨0x1C0#9, a ++ b ++ c ++ d⟩ :: feedRequests B ∧
    feedRequests [a, b, c] = [⟨0x1A0#9, 0x0000#16 ++ a ++ b⟩, ⟨0x180#9, 0x000000#24 ++ c⟩] ∧
    feedRequests [a, b] = [⟨0x1A0#9, 0x0000#16 ++ a ++ b⟩] ∧
    feedRequests [a] = [⟨0x180#9, 0x000000#24 ++ a⟩] ∧
    feedRequests [] = []) ∧
  (∀ B, assembleLine (.cksum B) = some (⟨0x1CC#9, 0x00000001#32⟩ :: (feedRequests B ++ [⟨0x144#9, 0#32⟩])))

/-! ### The step -/

/-- The model's table-word layout (logs 7 and 8): every request is the reading of its own numeral, and a step after placing a numeral
runs exactly what it decodes to, in the state it was placed in. -/
def Obligations.PlacedTableWordRunsNext : Prop :=
  (∀ q : Request, decodeTableWord 48 q.toBits = some (decode q.req q.wdata)) ∧
  ∀ (s : State) (nbits w : Nat) (i : Instr), s.phase = .running → decodeTableWord nbits w = some i →
    step (s.withFetchWord nbits w) = exec i s

/-- A step runs the decoded instruction: at a rising edge of a running engine (R40) reset wins; else the step is exec of what REQ
and WDATA decode to, in the state whose list of events has moved on. A request gets its response at that edge; a cycle with
none gets none. -/
def Obligations.StepRunsTheDecodedRequest : Prop :=
  ∀ (s : State) (p : PortInputs) (es : List HostEvent), s.phase = .running → s.events = .edge p :: es →
    (p.rst = true → step s = .next { State.reset with draws := s.draws, events := es }) ∧
    (p.rst = false → step s = exec (decode (mkReq p.req p.we p.size p.addr) p.wdata) { s with events := es }) ∧
    (p.rst = false → p.req = true → ∃ t, step s = .next t ∧ t.rsp = true ∧ t.events = es) ∧
    (p.rst = false → p.req = false → step s = .next { s with rsp := false, err := false, rdata := 0#32, events := es })

/-- The model's choice (log 2): a host whose list of events has ended presents no request, so the step is an IDLE cycle. -/
def Obligations.EndedHostPresentsNoRequest : Prop :=
  ∀ s : State, s.phase = .running → s.events = [] →
    step s = .next { s with rsp := false, err := false, rdata := 0#32 }

/-- R120: reset, whatever the other inputs hold and whether or not a reset had occurred before: a request at the same edge is
discarded. What the host does next and the numbering of free values (the model's own) are left. -/
def Obligations.ResetEdgeSetsTheResetValues : Prop :=
  ∀ (s : State) (p : PortInputs) (es : List HostEvent), s.events = .edge p :: es → p.rst = true →
    step s = .next
      { acc := 0x00000000#32, odd := false, rsp := false, err := false, rdata := 0x00000000#32,
        phase := .running, draws := s.draws, events := es }

/-- R30: the values after reset, of the state and of the registers as read. -/
def Obligations.ValuesAfterReset : Prop :=
  State.reset.acc = 0x00000000#32 ∧ State.reset.odd = false ∧ State.reset.rsp = false ∧
  State.reset.rdata = 0x00000000#32 ∧ State.reset.err = false ∧
  exec .rdResult State.reset = .next { State.reset with rsp := true, rdata := 0x0000FFFF#32 } ∧
  exec .rdSum State.reset = .next { State.reset with rsp := true, rdata := 0x00000000#32 } ∧
  exec .rdStatus State.reset = .next { State.reset with rsp := true, rdata := 0x00000000#32 }

/-- R111, R121 and 93_implementation_defined.md I1, I2: with clk stopped a running engine holds everything; a loss of power leaves an
engine that has not been reset; of such an engine a request is refused, an edge without one leaves it unreset, and an edge
with rst = 1 makes it run. (Its registers are free values: no clause says what they hold. That rsp, err and rdata hold too
while clk is stopped is log 5.) -/
def Obligations.ClockStopAndPowerLoss : Prop :=
  ∀ (s : State) (es : List HostEvent),
    (s.events = .clkStopped :: es → s.phase = .running → step s = .next { s with events := es }) ∧
    (s.events = .powerLoss :: es → ∃ t, step s = .next t ∧ t.phase = .unreset ∧ t.events = es) ∧
    (∀ p, s.events = .edge p :: es → s.phase = .unreset → p.rst = false → p.req = true →
      step s = .refused .beforeFirstReset) ∧
    (∀ p, s.events = .edge p :: es → s.phase = .unreset → p.rst = false → p.req = false →
      ∃ t, step s = .next t ∧ t.phase = .unreset ∧ t.events = es) ∧
    (∀ p, s.events = .edge p :: es → s.phase = .unreset → p.rst = true →
      ∃ t, step s = .next t ∧ t.phase = .running ∧ t.events = es)

/-- D27, I3: an edge whose inputs are not binary is refused. -/
def Obligations.NonBinaryInputsAreRefused : Prop :=
  ∀ (s : State) (es : List HostEvent), s.events = .edgeNotBinary :: es → step s = .refused .inputsNotBinary

/-- The engine accepts every request (R40, R100): a running engine goes on at every event but non-binary inputs, and keeps running
unless power is lost. -/
def Obligations.RunningEngineNeverStops : Prop :=
  ∀ s : State, s.phase = .running → nextEvent s ≠ .edgeNotBinary →
    ∃ t, step s = .next t ∧ (nextEvent s ≠ .powerLoss → t.phase = .running)

/-! ### The operations: what each computes, and that it completes -/

/-- R81, R80: WRDATA8 feeds WDATA[7:0], as a high byte at ODD = 0 and as a low byte at ODD = 1, and flips ODD. -/
def Obligations.WrData8FeedsOneByte : Prop :=
  ∀ (w : Word) (s : State),
    decode 0x180#9 w = .wrData8 w ∧
    exec (.wrData8 w) s = .next
      { s with
        acc := if s.odd then eac32 s.acc ((w.extractLsb' 0 8).setWidth 32)
          else eac32 s.acc ((w.extractLsb' 0 8).setWidth 32 <<< 8)
        odd := !s.odd, rsp := true, err := false, rdata := 0x00000000#32 }

/-- R82: WRDATA16 feeds WDATA[15:8] then WDATA[7:0], leaves ODD, and at ODD = 0 adds WDATA[15:0] in one. -/
def Obligations.WrData16FeedsTwoBytes : Prop :=
  ∀ (w : Word) (s : State),
    decode 0x1A0#9 w = .wrData16 w ∧
    exec (.wrData16 w) s = .next
      { s with
        acc := if s.odd then
            eac32 (eac32 s.acc ((w.extractLsb' 8 8).setWidth 32)) ((w.extractLsb' 0 8).setWidth 32 <<< 8)
          else eac32 (eac32 s.acc ((w.extractLsb' 8 8).setWidth 32 <<< 8)) ((w.extractLsb' 0 8).setWidth 32)
        rsp := true, err := false, rdata := 0x00000000#32 } ∧
    (s.odd = false → exec (.wrData16 w) s = .next
      { s with acc := eac32 s.acc ((w.extractLsb' 0 16).setWidth 32), rsp := true, err := false, rdata := 0x00000000#32 })

/-- R83: WRDATA32 feeds the four bytes of WDATA, most significant first, leaves ODD, and at ODD = 0 adds WDATA[31:16] and then
WDATA[15:0]. -/
def Obligations.WrData32FeedsFourBytes : Prop :=
  ∀ (w : Word) (s : State),
    decode 0x1C0#9 w = .wrData32 w ∧
    exec (.wrData32 w) s = .next
      { s with
        acc := if s.odd then
            eac32 (eac32 (eac32 (eac32 s.acc ((w.extractLsb' 24 8).setWidth 32)) ((w.extractLsb' 16 8).setWidth 32 <<< 8))
              ((w.extractLsb' 8 8).setWidth 32)) ((w.extractLsb' 0 8).setWidth 32 <<< 8)
          else
            eac32 (eac32 (eac32 (eac32 s.acc ((w.extractLsb' 24 8).setWidth 32 <<< 8)) ((w.extractLsb' 16 8).setWidth 32))
              ((w.extractLsb' 8 8).setWidth 32 <<< 8)) ((w.extractLsb' 0 8).setWidth 32)
        rsp := true, err := false, rdata := 0x00000000#32 } ∧
    (s.odd = false → exec (.wrData32 w) s = .next
      { s with
        acc := eac32 (eac32 s.acc ((w.extractLsb' 16 16).setWidth 32)) ((w.extractLsb' 0 16).setWidth 32)
        rsp := true, err := false, rdata := 0x00000000#32 })

/-- R45: WDATA above the access size is ignored, and all of WDATA for a read. -/
def Obligations.WdataAboveTheSizeIsIgnored : Prop :=
  ∀ (w w' : Word) (s : State),
    (w.extractLsb' 0 8 = w'.extractLsb' 0 8 → exec (decode 0x180#9 w) s = exec (decode 0x180#9 w') s) ∧
    (w.extractLsb' 0 16 = w'.extractLsb' 0 16 → exec (decode 0x1A0#9 w) s = exec (decode 0x1A0#9 w') s) ∧
    ∀ (r : ReqVec), r.getLsbD 7 = false → exec (decode r w) s = exec (decode r w') s

/-- R90: WRCTRL clears ACC and ODD if WDATA[0] = 1 and otherwise only responds; WDATA[31:1] is ignored. -/
def Obligations.WrCtrlClearsOnBitZero : Prop :=
  ∀ (w : Word) (s : State),
    decode 0x1CC#9 w = .wrCtrl w ∧
    (w.getLsbD 0 = true → exec (.wrCtrl w) s = .next
      { s with acc := 0x00000000#32, odd := false, rsp := true, err := false, rdata := 0x00000000#32 }) ∧
    (w.getLsbD 0 = false → exec (.wrCtrl w) s = .next { s with rsp := true, err := false, rdata := 0x00000000#32 })

/-- R91: RDRESULT reads the 16-bit complement of the folded sum, zero-extended. -/
def Obligations.RdResultReadsTheComplement : Prop :=
  ∀ (w : Word) (s : State),
    decode 0x144#9 w = .rdResult ∧
    exec .rdResult s = .next { s with rsp := true, err := false, rdata := (~~~fold16 s.acc).setWidth 32 }

/-- R92: RDSUM reads the folded sum, zero-extended. -/
def Obligations.RdSumReadsTheFold : Prop :=
  ∀ (w : Word) (s : State),
    decode 0x148#9 w = .rdSum ∧
    exec .rdSum s = .next { s with rsp := true, err := false, rdata := (fold16 s.acc).setWidth 32 }

/-- R93: RDSTATUS reads ODD, zero-extended. -/
def Obligations.RdStatusReadsThePhase : Prop :=
  ∀ (w : Word) (s : State),
    decode 0x150#9 w = .rdStatus ∧
    exec .rdStatus s = .next { s with rsp := true, err := false, rdata := if s.odd then 0x00000001#32 else 0x00000000#32 }

/-- R94: IDLE, at any other inputs, leaves ACC and ODD and gives no response. -/
def Obligations.IdleGivesNoResponse : Prop :=
  ∀ (r : ReqVec) (w : Word) (s : State), r.getLsbD 8 = false →
    decode r w = .idle ∧ exec .idle s = .next { s with rsp := false, err := false, rdata := 0x00000000#32 }

/-- R102: a BusError responds err = 1, rdata = 0, and writes neither ACC nor ODD. -/
def Obligations.BusErrorRespondsAndChangesNothing : Prop :=
  ∀ (we : Bool) (size : BitVec 2) (addr : BitVec 5) (s : State),
    exec (.busErr we size addr) s = .next { s with rsp := true, err := true, rdata := 0x00000000#32 }

/-- R100, R102, R40: every operation completes; err is set by a BusError alone and says nothing of earlier requests; rsp is set by
every operation but IDLE. -/
def Obligations.EveryOperationAnswersForItself : Prop :=
  ∀ (i : Instr) (s : State), ∃ t, exec i s = .next t ∧
    (t.err = true ↔ ∃ we size addr, i = .busErr we size addr) ∧
    (t.rsp = false ↔ i = .idle)

/-- R26, R27: RESULT and SUM read at one state are bitwise complements in their low halves, and 0 above. -/
def Obligations.ResultAndSumAreComplements : Prop :=
  ∀ s : State, ∃ t u, exec .rdResult s = .next t ∧ exec .rdSum s = .next u ∧
    t.rdata.extractLsb' 0 16 = ~~~(u.rdata.extractLsb' 0 16) ∧
    t.rdata.extractLsb' 16 16 = 0#16 ∧ u.rdata.extractLsb' 16 16 = 0#16

/-- R24, R11: after CLEAR, RESULT reads 0x0000FFFF. -/
def Obligations.ResultAfterClearIsFFFF : Prop :=
  ∀ (w : Word) (s : State), w.getLsbD 0 = true →
    ∃ t u, exec (.wrCtrl w) s = .next t ∧ exec .rdResult t = .next u ∧ u.rdata = 0x0000FFFF#32

/-- R48: a read repeated changes nothing; CLEAR repeated changes nothing; CTRL with CLEAR = 0 and a BusError leave ACC and ODD; a
DATA write repeated feeds its bytes twice. -/
def Obligations.SideEffectsOfEachAccess : Prop :=
  ∀ (s : State) (w : Word),
    (∀ i : Instr, i = .rdResult ∨ i = .rdSum ∨ i = .rdStatus →
      ∃ t, exec i s = .next t ∧ exec i t = .next t ∧ t.acc = s.acc ∧ t.odd = s.odd) ∧
    (w.getLsbD 0 = true → ∃ t, exec (.wrCtrl w) s = .next t ∧ exec (.wrCtrl w) t = .next t) ∧
    (w.getLsbD 0 = false → ∃ t, exec (.wrCtrl w) s = .next t ∧ t.acc = s.acc ∧ t.odd = s.odd) ∧
    (∀ we size addr, ∃ t, exec (.busErr we size addr) s = .next t ∧ t.acc = s.acc ∧ t.odd = s.odd) ∧
    (∀ (S bs : List Byte) (i : Instr), tracks S s →
      (i = .wrData8 w ∧ bs = [w.extractLsb' 0 8] ∨
       i = .wrData16 w ∧ bs = [w.extractLsb' 8 8, w.extractLsb' 0 8] ∨
       i = .wrData32 w ∧ bs = [w.extractLsb' 24 8, w.extractLsb' 16 8, w.extractLsb' 8 8, w.extractLsb' 0 8]) →
      ∃ t u, exec i s = .next t ∧ exec i t = .next u ∧ tracks (S ++ bs ++ bs) u)

/-! ### Whole-machine rules -/

/-- R21, R22: only a DATA write, CLEAR and reset change ACC or ODD of an engine that keeps running, and IDLE, reads and BusErrors
never do. -/
def Obligations.OnlyFeedClearAndResetChangeTheStream : Prop :=
  ∀ s t : State, s.phase = .running → t.phase = .running → step s = .next t → (t.acc ≠ s.acc ∨ t.odd ≠ s.odd) →
    ∃ p, nextEvent s = .edge p ∧
      (p.rst = true ∨
       (p.req = true ∧ p.we = true ∧ p.addr = 0x00#5 ∧ p.size ≠ 0b11#2) ∨
       (p.req = true ∧ p.we = true ∧ p.addr = 0x0C#5 ∧ p.size = 0b10#2 ∧ p.wdata.getLsbD 0 = true))

/-- An invariant of every step, from any state that meets it (R40, R47, R26, R27, R29): once a reset has occurred, the output ports
show err = 0 and rdata = 0 without a response, rdata = 0 with an error, and never read data above bit 15. -/
def Obligations.StepKeepsOutputsSettled : Prop :=
  ∀ s t : State, outputsSettled s → step s = .next t → outputsSettled t

/-- The reset state's output ports meet that invariant (R30). -/
def Obligations.ResetOutputsAreSettled : Prop := outputsSettled State.reset

/-- R23: whatever stream ACC and ODD stand for, after an accepted request (or an idle cycle) they stand for the stream that R24
gives, and fold16(ACC) and its complement are the folded total and the checksum of it, at every length; after reset they
stand for the empty stream. -/
def Obligations.AccumulatorTracksTheStream : Prop :=
  tracks [] State.reset ∧
  ∀ (S : List Byte) (s : State) (i : Instr), tracks S s →
    ∃ t, exec i s = .next t ∧ tracks (streamAfter i S) t ∧
      (fold16 t.acc).toNat = fold (total (streamAfter i S)) ∧ ~~~fold16 t.acc = checksum (streamAfter i S)

/-- The same of every step (R23, R24): edges with and without requests, reset, a stopped clock. Nothing is said of an engine that has
not been reset. -/
def Obligations.StepTracksTheStream : Prop :=
  ∀ (S : List Byte) (s t : State), (s.phase = .running → tracks S s) → step s = .next t → t.phase = .running →
    tracks (streamAfterEvent (nextEvent s) S) t

/-- R2, R91, R92, R93: at any state that stands for a stream, RESULT reads its checksum, SUM its folded total, and STATUS 1 after an
odd number of fed bytes and 0 after an even number. -/
def Obligations.ReadsGiveTheChecksumOfTheStream : Prop :=
  ∀ (S : List Byte) (s : State), tracks S s →
    ∃ t u v, exec .rdResult s = .next t ∧ t.rdata = (checksum S).setWidth 32 ∧
      exec .rdSum s = .next u ∧ u.rdata.toNat = fold (total S) ∧
      exec .rdStatus s = .next v ∧ v.rdata = if S.length % 2 = 1 then 0x00000001#32 else 0x00000000#32

/-- R84: any sequence of DATA writes leaves ACC and ODD as the single bytes it feeds, one `wr.d8` each, would; every response is
(0, 0). -/
def Obligations.GroupingOfDataWrites : Prop :=
  ∀ (is : List Instr) (s : State) (rest : List HostEvent),
    (∀ i ∈ is, ∃ w, i = .wrData8 w ∨ i = .wrData16 w ∨ i = .wrData32 w) → s.phase = .running →
    let bytes := is.flatMap fun i => streamAfter i []
    let grouped : State := { s with events := edgesOf (is.map encode) ++ rest }
    let single : State := { s with events := edgesOf (bytes.map fun b => ⟨0x180#9, b.setWidth 32⟩) ++ rest }
    ∃ t u, core.run is.length grouped = .next t ∧ core.run bytes.length single = .next u ∧
      t.acc = u.acc ∧ t.odd = u.odd ∧ t.events = rest ∧ u.events = rest ∧
      observed is.length grouped = List.replicate is.length (some ⟨false, 0#32⟩) ∧
      observed bytes.length single = List.replicate bytes.length (some ⟨false, 0#32⟩)

/-- R84: `wr.d32 v` is `wr.d16 v[31:16]` then `wr.d16 v[15:0]`, and `wr.d16 v` is `wr.d8 v[15:8]` then `wr.d8 v[7:0]`, at either
phase and in every piece of state. -/
def Obligations.WideWritesSplit : Prop :=
  ∀ (w : Word) (s : State),
    (∃ t u, exec (.wrData16 ((w.extractLsb' 16 16).setWidth 32)) s = .next t ∧
      exec (.wrData16 ((w.extractLsb' 0 16).setWidth 32)) t = .next u ∧ exec (.wrData32 w) s = .next u) ∧
    (∃ t u, exec (.wrData8 ((w.extractLsb' 8 8).setWidth 32)) s = .next t ∧
      exec (.wrData8 ((w.extractLsb' 0 8).setWidth 32)) t = .next u ∧ exec (.wrData16 w) s = .next u)

/-- R84: what ACC and ODD are after DATA writes depends on the stream's total and length alone. Two sequences of DATA writes, played by
two running engines, run to the end with equal ACC and ODD: where the streams they complete (from any stream so far, at either phase;
the empty one after CLEAR or reset) have equal total and length; and where the engines begin with equal ACC at ODD = 0, whatever was fed
before, and the bytes fed have equal total and length. -/
def Obligations.StateDependsOnTotalAndLength : Prop :=
  ∀ (is js : List Instr) (s s' : State) (rest rest' : List HostEvent),
    (∀ i ∈ is, ∃ w, i = .wrData8 w ∨ i = .wrData16 w ∨ i = .wrData32 w) →
    (∀ j ∈ js, ∃ w, j = .wrData8 w ∨ j = .wrData16 w ∨ j = .wrData32 w) →
    s.phase = .running → s'.phase = .running →
    let fed := is.flatMap fun i => streamAfter i []
    let fed' := js.flatMap fun j => streamAfter j []
    ((∃ S S', tracks S s ∧ tracks S' s' ∧ total (S ++ fed) = total (S' ++ fed') ∧
        (S ++ fed).length = (S' ++ fed').length) ∨
      (s.acc = s'.acc ∧ s.odd = false ∧ s'.odd = false ∧ total fed = total fed' ∧ fed.length = fed'.length)) →
    ∃ t u, core.run is.length { s with events := edgesOf (is.map encode) ++ rest } = .next t ∧
      core.run js.length { s' with events := edgesOf (js.map encode) ++ rest' } = .next u ∧
      t.acc = u.acc ∧ t.odd = u.odd

/-- R68, R84: `feed B` has the effect of feeding the bytes of B in order, at either phase. -/
def Obligations.FeedExpansionFeedsTheBuffer : Prop :=
  ∀ (B S : List Byte) (s : State) (rest : List HostEvent), s.phase = .running → tracks S s →
    s.events = edgesOf (feedRequests B) ++ rest →
    ∃ t, core.run (feedRequests B).length s = .next t ∧ tracks (S ++ B) t ∧ t.phase = .running ∧ t.events = rest

/-- R123: the host protocol, with any mix of DATA writes. From any running state, CLEAR (or, instead, an engine whose stream is
empty), DATA writes that feed the bytes of B in order, and `rd.result` end with rdata = Checksum(B), whatever the length. -/
def Obligations.HostProtocolComputesTheChecksum : Prop :=
  ∀ (B : List Byte) (is : List Instr) (s : State) (rest : List HostEvent) (w : Word),
    (∀ i ∈ is, ∃ v, i = .wrData8 v ∨ i = .wrData16 v ∨ i = .wrData32 v) →
    (is.flatMap fun i => streamAfter i []) = B → s.phase = .running →
    (w.getLsbD 0 = true →
      ∃ t, core.run (is.length + 2) { s with events := edgesOf ((Instr.wrCtrl w :: is ++ [Instr.rdResult]).map encode) ++ rest } = .next t ∧
        t.rsp = true ∧ t.err = false ∧ t.rdata = (checksum B).setWidth 32 ∧ t.events = rest) ∧
    (tracks [] s →
      ∃ t, core.run (is.length + 1) { s with events := edgesOf ((is ++ [Instr.rdResult]).map encode) ++ rest } = .next t ∧
        t.rsp = true ∧ t.err = false ∧ t.rdata = (checksum B).setWidth 32 ∧ t.events = rest)

/-- R68: `cksum B` returns zext_32(Checksum(B)) from any running state, and leaves the stream B in ACC and ODD. -/
def Obligations.CksumPseudoReturnsTheChecksum : Prop :=
  ∀ (B : List Byte) (s : State) (rest : List HostEvent), s.phase = .running →
    s.events = edgesOf (cksumRequests B) ++ rest →
    ∃ t, core.run (cksumRequests B).length s = .next t ∧
      t.rsp = true ∧ t.err = false ∧ t.rdata = (checksum B).setWidth 32 ∧ tracks B t ∧ t.events = rest

/-- R124 to R126, R128: computing the checksum of a header with its field zero, placing the result in bytes 10 and 11 high byte first,
and computing again gives 0x0000; each computation takes 7 requests. -/
def Obligations.HeaderChecksumVerifiesToZero : Prop :=
  ∀ (n : Nat) (identification : Half) (source : Word) (s : State) (rest : List HostEvent), n ≤ 1480 → s.phase = .running →
    let H := ipv4Header n identification source
    ∃ t, core.run 7 { s with events := edgesOf (cksumRequests H) ++ rest } = .next t ∧ t.events = rest ∧ t.phase = .running ∧
      t.rdata = (checksum H).setWidth 32 ∧
      ∃ u, core.run 7 { t with events := edgesOf (cksumRequests (placeResult H headerChecksumOffset t.rdata)) ++ rest } = .next u ∧
        u.rsp = true ∧ u.err = false ∧ u.rdata = 0x00000000#32

/-- R31, R23: ACC beyond fold16(ACC) is hidden. Two states that differ in it alone show the host the same responses at every step of
every run, whatever the host does. -/
def Obligations.HiddenAccumulatorIsNeverSeen : Prop :=
  ∀ (k : Nat) (s t : State), sameButHiddenAcc s t → observed k s = observed k t

/-- The step of that: from two states that differ at most in what ACC hides, one step either gives two states that again differ at most
in that and show the same response, or is refused in both for the same reason. -/
def Obligations.StepKeepsTheAccumulatorHidden : Prop :=
  ∀ s t : State, sameButHiddenAcc s t →
    (∃ s' t', step s = .next s' ∧ step t = .next t' ∧ sameButHiddenAcc s' t' ∧ responseOf s' = responseOf t') ∨
    (∃ r, step s = .refused r ∧ step t = .refused r)

/-! ### The reference function and the engine's arithmetic -/

/-- R9: the second addition of eac32 and of fold16 never carries out, and fold16 is the source's Fold at every 32-bit value. -/
def Obligations.EndAroundAdditionsNeverCarryTwice : Prop :=
  (∀ a b : Word,
    let s : BitVec 33 := a.setWidth 33 + b.setWidth 33
    (s.extractLsb' 0 32).toNat + (s.extractLsb' 32 1).toNat < 2 ^ 32 ∧
    (eac32 a b).toNat = (s.extractLsb' 0 32).toNat + (s.extractLsb' 32 1).toNat) ∧
  (∀ x : Word,
    let y : BitVec 17 := (x.extractLsb' 16 16).setWidth 17 + (x.extractLsb' 0 16).setWidth 17
    (y.extractLsb' 0 16).toNat + (y.extractLsb' 16 1).toNat < 2 ^ 16 ∧
    (fold16 x).toNat = (y.extractLsb' 0 16).toNat + (y.extractLsb' 16 1).toNat ∧
    (fold16 x).toNat = fold x.toNat)

/-- R10: the residue law of Fold, and when a checksum is 0xFFFF and when it is 0x0000. -/
def Obligations.ResidueLaw : Prop :=
  (∀ T : Nat, fold T = if T = 0 then 0 else 1 + (T - 1) % 65535) ∧
  (∀ B : List Byte,
    (fold (total B) = 0 ↔ ∀ b ∈ B, b = 0x00#8) ∧
    (checksum B = 0xFFFF#16 ↔ ∀ b ∈ B, b = 0x00#8) ∧
    (checksum B = 0x0000#16 ↔ 0 < total B ∧ total B % 65535 = 0))

/-- R12: the verification law with its exact conditions: an even-offset field high byte first, an odd-offset field low byte first, and
the counterexample of an odd-offset field high byte first. -/
def Obligations.VerificationLaw : Prop :=
  (∀ (B : List Byte) (f : Nat), f + 1 < B.length →
    let c := checksum ((B.set f 0x00#8).set (f + 1) 0x00#8)
    (f % 2 = 0 → B[f]? = some (c.extractLsb' 8 8) → B[f + 1]? = some (c.extractLsb' 0 8) → checksum B = 0x0000#16) ∧
    (f % 2 = 1 → B[f]? = some (c.extractLsb' 0 8) → B[f + 1]? = some (c.extractLsb' 8 8) → checksum B = 0x0000#16)) ∧
  checksum [0x01#8, 0x00#8, 0x00#8] = 0xFEFF#16 ∧ checksum [0x01#8, 0xFE#8, 0xFF#8] = 0xFF00#16

/-- R13: exchanging the bytes of every pair of a buffer of even length exchanges the bytes of its checksum. -/
def Obligations.ByteSwapLaw : Prop :=
  ∀ B : List Byte, B.length % 2 = 0 → checksum (swapPairs B) = swap16 (checksum B)

/-- R54, R126: RESULT[15:8] goes to the field's lower offset, RESULT[7:0] to the next, and no other byte changes. -/
def Obligations.ResultPlacement : Prop :=
  ∀ (B : List Byte) (f : Nat) (rdata : Word), f + 1 < B.length →
    (placeResult B f rdata)[f]? = some (rdata.extractLsb' 8 8) ∧
    (placeResult B f rdata)[f + 1]? = some (rdata.extractLsb' 0 8) ∧
    (placeResult B f rdata).length = B.length ∧
    ∀ k, k ≠ f → k ≠ f + 1 → (placeResult B f rdata)[k]? = B[k]?

/-- R5, R7, R41: the host's accesses at BASE + addr put addr, the direction and the size code of their width on the ports, whatever
BASE is; an access outside the window is none of the engine's. -/
def Obligations.HostViewDoesNotDependOnBase : Prop :=
  ∀ (c : Config) (addr : BitVec 5) (v : Word), c.wf = true →
    (∀ n size, (n = 1 ∧ size = 0b00#2) ∨ (n = 2 ∧ size = 0b01#2) ∨ (n = 4 ∧ size = 0b10#2) →
      memWrite c (c.base + addr.toNat) n v = some ⟨mkReq true true size addr, v⟩ ∧
      (∃ w, memRead c (c.base + addr.toNat) n = some ⟨mkReq true false size addr, w⟩)) ∧
    (∀ a n, a < c.base ∨ c.base + 32 ≤ a → memWrite c a n v = none ∧ memRead c a n = none)
end

