-- ==== Sys2Proof/Laws/Arith.lean ====
section
/-!
SUPPORT. What the engine's additions compute, as natural numbers (00_scope.md R9), and the residue they keep (R10).
-/
namespace Sys2Proof.Machine

/-- End-around-carry addition as a number: the carry out of bit 31 comes back as 1 (R9). -/
theorem eac32_toNat (a b : Word) :
    (eac32 a b).toNat = if a.toNat + b.toNat < 2 ^ 32 then a.toNat + b.toNat else a.toNat + b.toNat - (2 ^ 32 - 1) := by
  have ha := a.isLt
  have hb := b.isLt
  simp only [eac32, BitVec.toNat_add, BitVec.toNat_setWidth, BitVec.extractLsb'_toNat, Nat.shiftRight_eq_div_pow]
  split <;> omega

/-- The 16-bit fold as a number (R9). -/
theorem fold16_toNat (x : Word) :
    (fold16 x).toNat =
      if x.toNat / 2 ^ 16 + x.toNat % 2 ^ 16 < 2 ^ 16 then x.toNat / 2 ^ 16 + x.toNat % 2 ^ 16
      else x.toNat / 2 ^ 16 + x.toNat % 2 ^ 16 - (2 ^ 16 - 1) := by
  have hx := x.isLt
  have hh : x.toNat / 2 ^ 16 < 2 ^ 16 := by omega
  have hl : x.toNat % 2 ^ 16 < 2 ^ 16 := by omega
  simp only [fold16, BitVec.toNat_add, BitVec.toNat_setWidth, BitVec.extractLsb'_toNat, Nat.shiftRight_eq_div_pow,
    Nat.pow_zero, Nat.div_one]
  generalize x.toNat / 2 ^ 16 = h at *
  generalize x.toNat % 2 ^ 16 = l at *
  rw [show (h % 2 ^ 16 % 2 ^ 17 + l % 2 ^ 17) % 2 ^ 17 = h + l by omega]
  split <;> omega

@[simp] theorem eacResidue_zero (n : Nat) : eacResidue n 0 = 0 := rfl

/-- One end-around addition at 32 bits keeps the residue of the sum (R10). -/
theorem eac32_keeps_residue {a b : Word} {T : Nat} (h : a.toNat = eacResidue 32 T) :
    (eac32 a b).toNat = eacResidue 32 (T + b.toNat) := by
  have hb := b.isLt
  rw [eac32_toNat, h]
  unfold eacResidue
  split <;> split <;> split <;> omega

/-- fold16 keeps the residue at 16 bits of what ACC keeps at 32 bits: 65535 divides 2^32 - 1 (10_state.md R23). -/
theorem fold16_residue {a : Word} {T : Nat} (h : a.toNat = eacResidue 32 T) :
    (fold16 a).toNat = eacResidue 16 T := by
  rw [fold16_toNat, h]
  unfold eacResidue
  split <;> split <;> omega

/-- Every word is its own residue, so `fold16_residue` applies to it. -/
theorem toNat_eq_eacResidue (a : Word) : a.toNat = eacResidue 32 a.toNat := by
  have ha := a.isLt
  unfold eacResidue
  split <;> omega

theorem contribution_toNat (odd : Bool) (b : Byte) :
    (contribution odd b).toNat = if odd then b.toNat else b.toNat * 256 := by
  have hb := b.isLt
  cases odd <;> simp [contribution, Nat.shiftLeft_eq] <;> omega

end Sys2Proof.Machine
end

