-- ==== Sys2Proof/Laws/Encoding.lean ====
section
/-!
SUPPORT. The fields of a request vector, and what the decoder can answer (30_encoding.md R60, R62).
-/
namespace Sys2Proof

/-! ### Fields -/

@[simp] theorem reqWe_mkReq (r we : Bool) (size : BitVec 2) (addr : BitVec 5) : reqWe (mkReq r we size addr) = we := by
  revert r we size addr; decide

@[simp] theorem reqSize_mkReq (r we : Bool) (size : BitVec 2) (addr : BitVec 5) : reqSize (mkReq r we size addr) = size := by
  revert r we size addr; decide

@[simp] theorem reqAddr_mkReq (r we : Bool) (size : BitVec 2) (addr : BitVec 5) : reqAddr (mkReq r we size addr) = addr := by
  revert r we size addr; decide

@[simp] theorem getLsbD_mkReq (r we : Bool) (size : BitVec 2) (addr : BitVec 5) : (mkReq r we size addr).getLsbD 8 = r := by
  revert r we size addr; decide

/-- A request vector is its fields (R60). -/
theorem mkReq_fields (r : ReqVec) : mkReq (r.getLsbD 8) (reqWe r) (reqSize r) (reqAddr r) = r := by
  revert r; decide

/-! ### The opcode map -/

/-- Every REQ matches a row, so `firstMatch` never needs its default (R62). -/
theorem opcodeTable_covers (r : ReqVec) : (opcodeTable.find? fun row => row.hits r).isSome := by
  revert r; decide

namespace Machine

/-- The request that the ports carry when a request is put on them. -/
@[simp] theorem request_ofRequest (q : Request) : (PortInputs.ofRequest q).request = q := by
  simp only [PortInputs.request, PortInputs.ofRequest, mkReq_fields]

@[simp] theorem rst_ofRequest (q : Request) : (PortInputs.ofRequest q).rst = false := rfl

@[simp] theorem instr_ofRequest (q : Request) : (PortInputs.ofRequest q).instr = decode q.req q.wdata := by
  simp [PortInputs.instr, Request.decode]

end Machine

end Sys2Proof
end

