-- ==== Sys2Proof/Laws/Reference.lean ====
section
/-!
SUPPORT. The reference function's loop and sum, unfolded once (00_scope.md R8), and the stream's growth by a byte (10_state.md R23).
-/
namespace Sys2Proof.Machine

/-! ### The loop of Fold -/

/-- More turns than the number change nothing: the loop has ended by then. -/
theorem foldLoop_enough {fuel T : Nat} (h : T ≤ fuel) : foldLoop fuel T = foldLoop T T := by
  induction fuel using Nat.strong_induction_on generalizing T with
  | _ fuel ih =>
    match fuel, T with
    | fuel, 0 => cases fuel <;> simp [foldLoop]
    | fuel + 1, T + 1 =>
      simp only [foldLoop]
      split
      · have hle : (T + 1) % 2 ^ 16 + (T + 1) / 2 ^ 16 ≤ T := by omega
        rw [ih fuel (by omega) (Nat.le_trans hle (by omega)), ← ih T (by omega) hle]
      · rfl

/-- Fold is the while loop of R8: it stops below 2^16 and otherwise goes on with the folded number. -/
theorem fold_eq (T : Nat) : fold T = if 2 ^ 16 ≤ T then fold (T % 2 ^ 16 + T / 2 ^ 16) else T := by
  unfold fold
  cases T with
  | zero => rfl
  | succ T =>
    simp only [foldLoop]
    split
    · exact foldLoop_enough (by omega)
    · rfl

/-! ### Total -/

@[simp] theorem total_nil : total [] = 0 := rfl

/-- {high, low} as a number, where the low part is a byte (00_scope.md R6). -/
theorem append_toNat {n : Nat} (a : BitVec n) (b : Byte) : (a ++ b).toNat = a.toNat * 256 + b.toNat := by
  have hb := b.isLt
  rw [BitVec.toNat_append, Nat.shiftLeft_eq, Nat.mul_comm, ← Nat.two_pow_add_eq_or_of_lt hb]

@[simp] theorem total_single (b : Byte) : total [b] = b.toNat * 256 := by
  have h : total [b] = (b ++ 0#8 : Half).toNat := by simp [total, bufferWord]
  rw [h, append_toNat]
  simp

/-- The words of a buffer after its first one are the words of the rest (R8). -/
theorem bufferWord_succ (a b : Byte) (B : List Byte) (k : Nat) : bufferWord (a :: b :: B) (k + 1) = bufferWord B k := by
  have h : 2 * k + 2 + 1 < B.length + 1 + 1 ↔ 2 * k + 1 < B.length := by omega
  simp only [bufferWord, List.length_cons, Nat.mul_add, h, Nat.mul_one, List.getD_cons_succ]

/-- Total of a buffer of two bytes or more: the first word, high byte first, and the rest (R8). -/
theorem total_cons_cons (a b : Byte) (B : List Byte) : total (a :: b :: B) = a.toNat * 256 + b.toNat + total B := by
  have h2 : (B.length + 1 + 1 + 1) / 2 = (B.length + 1) / 2 + 1 := by omega
  have h0 : bufferWord (a :: b :: B) 0 = (a ++ b : Half) := by simp [bufferWord]
  simp only [total, List.length_cons, h2, List.range_succ_eq_map, List.map_cons, List.map_map, List.sum_cons,
    Function.comp_def, Nat.succ_eq_add_one, bufferWord_succ, h0, append_toNat]

/-- One more byte: a high byte after an even number of bytes, a low byte after an odd number (R8, 40_data_feed.md R80). -/
theorem total_append_byte (S : List Byte) (b : Byte) :
    total (S ++ [b]) = total S + (if S.length % 2 = 1 then b.toNat else b.toNat * 256) := by
  match S with
  | [] => simp
  | [a] => simp [total_cons_cons]
  | a :: c :: S =>
    have ih := total_append_byte S b
    have hpar : (S.length + 1 + 1) % 2 = 1 ↔ S.length % 2 = 1 := by omega
    simp only [List.cons_append, total_cons_cons, ih, List.length_cons, hpar]
    omega

/-! ### The stream and the state -/

/-- FeedByte keeps the state in step with the stream (R23, R80). -/
theorem tracks_feedByte {S : List Byte} {s : State} (h : tracks S s) (b : Byte) : tracks (S ++ [b]) (feedByte s b) := by
  obtain ⟨hacc, hodd⟩ := h
  constructor
  · simp only [feedByte]
    rw [eac32_keeps_residue hacc, contribution_toNat, total_append_byte, hodd]
    simp
  · simp only [feedByte, flipOdd, hodd, List.length_append, List.length_singleton]
    by_cases h : S.length % 2 = 1 <;> simp [h] <;> omega

/-- Feeding several bytes keeps the state in step with the stream. -/
theorem tracks_feedBytes {S : List Byte} {s : State} (h : tracks S s) (bs : List Byte) :
    tracks (S ++ bs) (feedBytes s bs) := by
  induction bs generalizing S s with
  | nil => simpa [feedBytes] using h
  | cons b bs ih => simpa [feedBytes] using ih (tracks_feedByte h b)

/-- `tracks` reads ACC and ODD alone. -/
theorem tracks_congr {S : List Byte} {s t : State} (ha : s.acc = t.acc) (ho : s.odd = t.odd) : tracks S s ↔ tracks S t := by
  simp [tracks, ha, ho]

/-- The cleared engine stands for the empty stream (R24, R30). -/
theorem tracks_nil {s : State} (ha : s.acc = 0#32) (ho : s.odd = false) : tracks [] s := by
  simp [tracks, ha, ho]

end Sys2Proof.Machine
end

