-- ==== Sys2Proof/Laws/Operands.lean ====
section
/-!
SUPPORT. Fields of WDATA and of the readable registers: what a DATA write feeds when its WDATA is put together from bytes or
halves (20_memory.md R45, R46; 30_encoding.md R68).
-/
namespace Sys2Proof.Machine

/-- `wr.d8` of a byte feeds that byte. -/
@[simp] theorem dataBytes8_setWidth (b : Byte) : dataBytes8 (b.setWidth 32) = [b] := by
  have hb := b.isLt
  simp only [dataBytes8, List.cons.injEq, and_true]
  apply BitVec.eq_of_toNat_eq
  simp only [BitVec.extractLsb'_toNat, BitVec.toNat_setWidth, Nat.shiftRight_eq_div_pow]
  omega

/-- `wr.d16 {a, b}` feeds a, then b. -/
@[simp] theorem dataBytes16_append (a b : Byte) : dataBytes16 ((a ++ b).setWidth 32) = [a, b] := by
  have ha := a.isLt
  have hb := b.isLt
  simp only [dataBytes16, List.cons.injEq, and_true]
  refine ⟨?_, ?_⟩ <;> apply BitVec.eq_of_toNat_eq <;>
    simp only [BitVec.extractLsb'_toNat, BitVec.toNat_setWidth, append_toNat, Nat.shiftRight_eq_div_pow] <;> omega

/-- `wr.d32 {a, b, c, d}` feeds a, b, c, d. -/
@[simp] theorem dataBytes32_append (a b c d : Byte) : dataBytes32 (a ++ b ++ c ++ d) = [a, b, c, d] := by
  have ha := a.isLt
  have hb := b.isLt
  have hc := c.isLt
  have hd := d.isLt
  simp only [dataBytes32, List.cons.injEq, and_true]
  refine ⟨?_, ?_, ?_, ?_⟩ <;> apply BitVec.eq_of_toNat_eq <;>
    simp only [BitVec.extractLsb'_toNat, append_toNat, Nat.shiftRight_eq_div_pow] <;> omega

/-- A 16-bit field of WDATA, written with `wr.d16`, feeds its upper and its lower byte. -/
theorem dataBytes16_field (w : Word) (k : Nat) :
    dataBytes16 ((w.extractLsb' k 16).setWidth 32) = [w.extractLsb' (k + 8) 8, w.extractLsb' k 8] := by
  simp only [dataBytes16, List.cons.injEq, and_true]
  refine ⟨?_, ?_⟩ <;> apply BitVec.eq_of_toNat_eq <;>
    simp only [BitVec.extractLsb'_toNat, BitVec.toNat_setWidth, Nat.shiftRight_eq_div_pow, Nat.pow_add,
      ← Nat.div_div_eq_div_mul] <;> omega

/-- The two bytes of a 16-bit field of WDATA, as FeedByte adds them at ODD = 0 and then ODD = 1, make up the field. -/
theorem field_bytes_toNat (w : Word) (k : Nat) :
    ((w.extractLsb' (k + 8) 8).setWidth 32 <<< 8 : Word).toNat + ((w.extractLsb' k 8).setWidth 32 : Word).toNat =
      ((w.extractLsb' k 16).setWidth 32 : Word).toNat := by
  simp only [BitVec.toNat_shiftLeft, BitVec.toNat_setWidth, BitVec.extractLsb'_toNat, Nat.shiftRight_eq_div_pow,
    Nat.shiftLeft_eq, Nat.pow_add, ← Nat.div_div_eq_div_mul]
  omega

/-- A readable register's upper half is 0 (10_state.md R26, R27). -/
@[simp] theorem upper_half_zero (x : Half) : (x.setWidth 32 : Word).extractLsb' 16 16 = 0#16 := by
  have hx := x.isLt
  apply BitVec.eq_of_toNat_eq
  simp only [BitVec.extractLsb'_toNat, BitVec.toNat_setWidth, Nat.shiftRight_eq_div_pow, BitVec.toNat_ofNat]
  omega

/-- A readable register's lower half is its field (R26, R27). -/
@[simp] theorem lower_half_field (x : Half) : (x.setWidth 32 : Word).extractLsb' 0 16 = x := by
  have hx := x.isLt
  apply BitVec.eq_of_toNat_eq
  simp only [BitVec.extractLsb'_toNat, BitVec.toNat_setWidth, Nat.shiftRight_eq_div_pow]
  omega

end Sys2Proof.Machine
end

