-- ==== Sys2Proof/Laws/State.lean ====
section
/-!
SUPPORT. One lemma per field per update of State, so that no proof unfolds a record update.
-/
namespace Sys2Proof.Machine

/-! ### feedByte -/

@[simp] theorem feedByte_acc (s : State) (b : Byte) : (feedByte s b).acc = eac32 s.acc (contribution s.odd b) := rfl
@[simp] theorem feedByte_odd (s : State) (b : Byte) : (feedByte s b).odd = flipOdd s.odd := rfl
@[simp] theorem feedByte_rsp (s : State) (b : Byte) : (feedByte s b).rsp = s.rsp := rfl
@[simp] theorem feedByte_err (s : State) (b : Byte) : (feedByte s b).err = s.err := rfl
@[simp] theorem feedByte_rdata (s : State) (b : Byte) : (feedByte s b).rdata = s.rdata := rfl
@[simp] theorem feedByte_phase (s : State) (b : Byte) : (feedByte s b).phase = s.phase := rfl
@[simp] theorem feedByte_draws (s : State) (b : Byte) : (feedByte s b).draws = s.draws := rfl
@[simp] theorem feedByte_events (s : State) (b : Byte) : (feedByte s b).events = s.events := rfl

/-! ### clearStream -/

@[simp] theorem clearStream_acc (s : State) : (clearStream s).acc = 0x00000000#32 := rfl
@[simp] theorem clearStream_odd (s : State) : (clearStream s).odd = false := rfl
@[simp] theorem clearStream_rsp (s : State) : (clearStream s).rsp = s.rsp := rfl
@[simp] theorem clearStream_err (s : State) : (clearStream s).err = s.err := rfl
@[simp] theorem clearStream_rdata (s : State) : (clearStream s).rdata = s.rdata := rfl
@[simp] theorem clearStream_phase (s : State) : (clearStream s).phase = s.phase := rfl
@[simp] theorem clearStream_draws (s : State) : (clearStream s).draws = s.draws := rfl
@[simp] theorem clearStream_events (s : State) : (clearStream s).events = s.events := rfl

/-! ### respond -/

@[simp] theorem respond_acc (s : State) (v : Word) : (respond s v).acc = s.acc := rfl
@[simp] theorem respond_odd (s : State) (v : Word) : (respond s v).odd = s.odd := rfl
@[simp] theorem respond_rsp (s : State) (v : Word) : (respond s v).rsp = true := rfl
@[simp] theorem respond_err (s : State) (v : Word) : (respond s v).err = false := rfl
@[simp] theorem respond_rdata (s : State) (v : Word) : (respond s v).rdata = v := rfl
@[simp] theorem respond_phase (s : State) (v : Word) : (respond s v).phase = s.phase := rfl
@[simp] theorem respond_draws (s : State) (v : Word) : (respond s v).draws = s.draws := rfl
@[simp] theorem respond_events (s : State) (v : Word) : (respond s v).events = s.events := rfl

/-! ### noResponse -/

@[simp] theorem noResponse_acc (s : State) : (noResponse s).acc = s.acc := rfl
@[simp] theorem noResponse_odd (s : State) : (noResponse s).odd = s.odd := rfl
@[simp] theorem noResponse_rsp (s : State) : (noResponse s).rsp = false := rfl
@[simp] theorem noResponse_err (s : State) : (noResponse s).err = false := rfl
@[simp] theorem noResponse_rdata (s : State) : (noResponse s).rdata = 0x00000000#32 := rfl
@[simp] theorem noResponse_phase (s : State) : (noResponse s).phase = s.phase := rfl
@[simp] theorem noResponse_draws (s : State) : (noResponse s).draws = s.draws := rfl
@[simp] theorem noResponse_events (s : State) : (noResponse s).events = s.events := rfl

/-! ### raiseBusError -/

@[simp] theorem raiseBusError_acc (s : State) : (raiseBusError s).acc = s.acc := rfl
@[simp] theorem raiseBusError_odd (s : State) : (raiseBusError s).odd = s.odd := rfl
@[simp] theorem raiseBusError_rsp (s : State) : (raiseBusError s).rsp = true := rfl
@[simp] theorem raiseBusError_err (s : State) : (raiseBusError s).err = true := rfl
@[simp] theorem raiseBusError_rdata (s : State) : (raiseBusError s).rdata = 0x00000000#32 := rfl
@[simp] theorem raiseBusError_phase (s : State) : (raiseBusError s).phase = s.phase := rfl
@[simp] theorem raiseBusError_draws (s : State) : (raiseBusError s).draws = s.draws := rfl
@[simp] theorem raiseBusError_events (s : State) : (raiseBusError s).events = s.events := rfl

/-! ### resetEngine -/

@[simp] theorem resetEngine_acc (s : State) : (resetEngine s).acc = 0x00000000#32 := rfl
@[simp] theorem resetEngine_odd (s : State) : (resetEngine s).odd = false := rfl
@[simp] theorem resetEngine_rsp (s : State) : (resetEngine s).rsp = false := rfl
@[simp] theorem resetEngine_err (s : State) : (resetEngine s).err = false := rfl
@[simp] theorem resetEngine_rdata (s : State) : (resetEngine s).rdata = 0x00000000#32 := rfl
@[simp] theorem resetEngine_phase (s : State) : (resetEngine s).phase = .running := rfl
@[simp] theorem resetEngine_draws (s : State) : (resetEngine s).draws = s.draws := rfl
@[simp] theorem resetEngine_events (s : State) : (resetEngine s).events = s.events := rfl

/-! ### unspecify -/

@[simp] theorem unspecify_acc (s : State) : (unspecify s).acc = Config.freeAcc s.draws := rfl
@[simp] theorem unspecify_odd (s : State) : (unspecify s).odd = Config.freeOdd s.draws := rfl
@[simp] theorem unspecify_rsp (s : State) : (unspecify s).rsp = Config.freeRsp s.draws := rfl
@[simp] theorem unspecify_err (s : State) : (unspecify s).err = Config.freeErr s.draws := rfl
@[simp] theorem unspecify_rdata (s : State) : (unspecify s).rdata = Config.freeRdata s.draws := rfl
@[simp] theorem unspecify_phase (s : State) : (unspecify s).phase = .unreset := rfl
@[simp] theorem unspecify_draws (s : State) : (unspecify s).draws = s.draws + 1 := rfl
@[simp] theorem unspecify_events (s : State) : (unspecify s).events = s.events := rfl

/-! ### takeEvent -/

@[simp] theorem takeEvent_acc (s : State) : (takeEvent s).acc = s.acc := rfl
@[simp] theorem takeEvent_odd (s : State) : (takeEvent s).odd = s.odd := rfl
@[simp] theorem takeEvent_rsp (s : State) : (takeEvent s).rsp = s.rsp := rfl
@[simp] theorem takeEvent_err (s : State) : (takeEvent s).err = s.err := rfl
@[simp] theorem takeEvent_rdata (s : State) : (takeEvent s).rdata = s.rdata := rfl
@[simp] theorem takeEvent_phase (s : State) : (takeEvent s).phase = s.phase := rfl
@[simp] theorem takeEvent_draws (s : State) : (takeEvent s).draws = s.draws := rfl
@[simp] theorem takeEvent_events (s : State) : (takeEvent s).events = s.events.tail := rfl

/-! ### presentRequest -/

@[simp] theorem presentRequest_acc (s : State) (q : Request) : (presentRequest s q).acc = s.acc := rfl
@[simp] theorem presentRequest_odd (s : State) (q : Request) : (presentRequest s q).odd = s.odd := rfl
@[simp] theorem presentRequest_rsp (s : State) (q : Request) : (presentRequest s q).rsp = s.rsp := rfl
@[simp] theorem presentRequest_err (s : State) (q : Request) : (presentRequest s q).err = s.err := rfl
@[simp] theorem presentRequest_rdata (s : State) (q : Request) : (presentRequest s q).rdata = s.rdata := rfl
@[simp] theorem presentRequest_phase (s : State) (q : Request) : (presentRequest s q).phase = .running := rfl
@[simp] theorem presentRequest_draws (s : State) (q : Request) : (presentRequest s q).draws = s.draws := rfl
@[simp] theorem presentRequest_events (s : State) (q : Request) : (presentRequest s q).events = .edge (.ofRequest q) :: s.events := rfl

/-! ### feedBytes -/

@[simp] theorem feedBytes_nil (s : State) : feedBytes s [] = s := rfl

@[simp] theorem feedBytes_cons (s : State) (b : Byte) (bs : List Byte) :
    feedBytes s (b :: bs) = feedBytes (feedByte s b) bs := rfl

theorem feedBytes_append (s : State) (bs cs : List Byte) :
    feedBytes s (bs ++ cs) = feedBytes (feedBytes s bs) cs := List.foldl_append

@[simp] theorem feedBytes_rsp (s : State) (bs : List Byte) : (feedBytes s bs).rsp = s.rsp := by
  induction bs generalizing s with
  | nil => rfl
  | cons b bs ih => simp [ih]

@[simp] theorem feedBytes_err (s : State) (bs : List Byte) : (feedBytes s bs).err = s.err := by
  induction bs generalizing s with
  | nil => rfl
  | cons b bs ih => simp [ih]

@[simp] theorem feedBytes_rdata (s : State) (bs : List Byte) : (feedBytes s bs).rdata = s.rdata := by
  induction bs generalizing s with
  | nil => rfl
  | cons b bs ih => simp [ih]

@[simp] theorem feedBytes_phase (s : State) (bs : List Byte) : (feedBytes s bs).phase = s.phase := by
  induction bs generalizing s with
  | nil => rfl
  | cons b bs ih => simp [ih]

@[simp] theorem feedBytes_draws (s : State) (bs : List Byte) : (feedBytes s bs).draws = s.draws := by
  induction bs generalizing s with
  | nil => rfl
  | cons b bs ih => simp [ih]

@[simp] theorem feedBytes_events (s : State) (bs : List Byte) : (feedBytes s bs).events = s.events := by
  induction bs generalizing s with
  | nil => rfl
  | cons b bs ih => simp [ih]

/-! ### What the operations leave of each other -/

/-- Feeding changes ACC and ODD alone (40_data_feed.md R80). -/
theorem feedBytes_eq (s : State) (bs : List Byte) :
    feedBytes s bs = { s with acc := (feedBytes s bs).acc, odd := (feedBytes s bs).odd } := by
  conv => lhs; rw [show feedBytes s bs = ⟨(feedBytes s bs).acc, (feedBytes s bs).odd, (feedBytes s bs).rsp,
    (feedBytes s bs).err, (feedBytes s bs).rdata, (feedBytes s bs).phase, (feedBytes s bs).draws,
    (feedBytes s bs).events⟩ from rfl]
  simp only [feedBytes_rsp, feedBytes_err, feedBytes_rdata, feedBytes_phase, feedBytes_draws, feedBytes_events]

/-- ACC and ODD after feeding depend on ACC and ODD alone (R80). -/
theorem feedBytes_congr {s t : State} (ha : s.acc = t.acc) (ho : s.odd = t.odd) (bs : List Byte) :
    (feedBytes s bs).acc = (feedBytes t bs).acc ∧ (feedBytes s bs).odd = (feedBytes t bs).odd := by
  induction bs generalizing s t with
  | nil => exact ⟨ha, ho⟩
  | cons b bs ih => exact ih (by simp [ha, ho]) (by simp [ho])

end Sys2Proof.Machine
end

