-- ==== Sys2Proof/Laws/Exec.lean ====
section
/-!
SUPPORT. What exec, an edge and a step can do, said once; later proofs cite these and unfold nothing.
-/
namespace Sys2Proof.Machine

/-! ### The meanings, one equation each (40_data_feed.md R81 to R83, 41_control_status.md R90 to R94, 60_exceptions.md R102) -/

@[simp] theorem exec_idle (s : State) : exec .idle s = .next (noResponse s) := rfl

@[simp] theorem exec_wrData8 (w : Word) (s : State) :
    exec (.wrData8 w) s = .next (respond (feedBytes s (dataBytes8 w)) 0#32) := rfl

@[simp] theorem exec_wrData16 (w : Word) (s : State) :
    exec (.wrData16 w) s = .next (respond (feedBytes s (dataBytes16 w)) 0#32) := rfl

@[simp] theorem exec_wrData32 (w : Word) (s : State) :
    exec (.wrData32 w) s = .next (respond (feedBytes s (dataBytes32 w)) 0#32) := rfl

@[simp] theorem exec_wrCtrl (w : Word) (s : State) :
    exec (.wrCtrl w) s = .next (respond (if ctrlClear w then clearStream s else s) 0#32) := rfl

@[simp] theorem exec_rdResult (s : State) : exec .rdResult s = .next (respond s (resultValue s)) := rfl

@[simp] theorem exec_rdSum (s : State) : exec .rdSum s = .next (respond s (sumValue s)) := rfl

@[simp] theorem exec_rdStatus (s : State) : exec .rdStatus s = .next (respond s (statusValue s)) := rfl

@[simp] theorem exec_busErr (we : Bool) (size : BitVec 2) (addr : BitVec 5) (s : State) :
    exec (.busErr we size addr) s = .next (raiseBusError s) := rfl

/-- Everything an operation can do: the answer is a next state, and ACC and ODD are those of the state after the stream was
extended, cleared or left, under one of the three shapes of response (no response, read data, BusError). -/
theorem exec_cases {i : Instr} {s t : State} (h : exec i s = .next t) :
    (i = .idle ∧ t = noResponse s) ∨
    (∃ we size addr, i = .busErr we size addr ∧ t = raiseBusError s) ∨
    (∃ v, t = respond s v ∧ v.extractLsb' 16 16 = 0#16) ∨
    (∃ w, i = .wrCtrl w ∧ ctrlClear w = true ∧ t = respond (clearStream s) 0#32) ∨
    (∃ w bs, (i = .wrData8 w ∧ bs = dataBytes8 w ∨ i = .wrData16 w ∧ bs = dataBytes16 w ∨
      i = .wrData32 w ∧ bs = dataBytes32 w) ∧ t = respond (feedBytes s bs) 0#32) := by
  cases i with
  | idle => simp only [exec_idle, Host.Outcome.next.injEq] at h; exact .inl ⟨rfl, h.symm⟩
  | wrData8 w =>
    simp only [exec_wrData8, Host.Outcome.next.injEq] at h
    exact .inr (.inr (.inr (.inr ⟨w, _, .inl ⟨rfl, rfl⟩, h.symm⟩)))
  | wrData16 w =>
    simp only [exec_wrData16, Host.Outcome.next.injEq] at h
    exact .inr (.inr (.inr (.inr ⟨w, _, .inr (.inl ⟨rfl, rfl⟩), h.symm⟩)))
  | wrData32 w =>
    simp only [exec_wrData32, Host.Outcome.next.injEq] at h
    exact .inr (.inr (.inr (.inr ⟨w, _, .inr (.inr ⟨rfl, rfl⟩), h.symm⟩)))
  | wrCtrl w =>
    simp only [exec_wrCtrl, Host.Outcome.next.injEq] at h
    by_cases hc : ctrlClear w = true
    · exact .inr (.inr (.inr (.inl ⟨w, rfl, hc, by rw [← h, if_pos hc]⟩)))
    · exact .inr (.inr (.inl ⟨0#32, by rw [← h, if_neg hc], by decide⟩))
  | rdResult =>
    simp only [exec_rdResult, Host.Outcome.next.injEq] at h
    exact .inr (.inr (.inl ⟨_, h.symm, upper_half_zero _⟩))
  | rdSum =>
    simp only [exec_rdSum, Host.Outcome.next.injEq] at h
    exact .inr (.inr (.inl ⟨_, h.symm, upper_half_zero _⟩))
  | rdStatus =>
    simp only [exec_rdStatus, Host.Outcome.next.injEq] at h
    refine .inr (.inr (.inl ⟨_, h.symm, ?_⟩))
    simp only [statusValue]
    cases s.odd <;> decide
  | busErr we size addr =>
    simp only [exec_busErr, Host.Outcome.next.injEq] at h
    exact .inr (.inl ⟨we, size, addr, rfl, h.symm⟩)

/-- No operation touches the host's events, the phase or the numbering of free values. -/
theorem exec_frame {i : Instr} {s t : State} (h : exec i s = .next t) :
    t.events = s.events ∧ t.phase = s.phase ∧ t.draws = s.draws := by
  obtain ⟨rfl, rfl⟩ | ⟨_, _, _, rfl, rfl⟩ | ⟨_, rfl, -⟩ | ⟨_, rfl, -, rfl⟩ | ⟨_, _, -, rfl⟩ := exec_cases h <;> simp

/-- Feeding from ODD = 0, whatever ACC holds: ACC gains the total of the bytes, end-around, and ODD is the parity of their number
(40_data_feed.md R80, R84). -/
theorem feedBytes_from_even (bs : List Byte) (s : State) (ho : s.odd = false) :
    (feedBytes s bs).acc.toNat = eacResidue 32 (s.acc.toNat + total bs) ∧
      (feedBytes s bs).odd = decide (bs.length % 2 = 1) := by
  induction bs using List.reverseRecOn with
  | nil => exact ⟨toNat_eq_eacResidue _, ho⟩
  | append_singleton bs b ih =>
    rw [feedBytes_append, feedBytes_cons, feedBytes_nil]
    constructor
    · rw [feedByte_acc, eac32_keeps_residue ih.1, contribution_toNat, total_append_byte, ih.2, Nat.add_assoc]
      simp
    · simp only [feedByte_odd, flipOdd, ih.2, List.length_append, List.length_singleton]
      by_cases h : bs.length % 2 = 1 <;> simp [h] <;> omega

/-! ### Edges and steps (20_memory.md R40) -/

/-- Everything a host event can lead to, when it leads to a next state. -/
theorem hostStep_cases {e : HostEvent} {s t : State} (h : hostStep e s = .next t) :
    (∃ p, e = .edge p ∧ p.rst = true ∧ t = resetEngine s) ∨
    (∃ p, e = .edge p ∧ p.rst = false ∧ s.phase = .running ∧ exec p.instr s = .next t) ∨
    (∃ p, e = .edge p ∧ p.rst = false ∧ p.req = false ∧ s.phase = .unreset ∧ t = unspecify s) ∨
    (e = .clkStopped ∧ s.phase = .running ∧ t = s) ∨
    (e = .clkStopped ∧ s.phase = .unreset ∧ t = unspecify s) ∨
    (e = .powerLoss ∧ t = unspecify s) := by
  cases e with
  | edge p =>
    simp only [hostStep, risingEdge] at h
    cases hr : p.rst <;> simp only [hr] at h
    · cases hp : s.phase <;> simp only [hp] at h
      · cases hq : p.req <;> simp [hq] at h
        exact .inr (.inr (.inl ⟨p, rfl, hr, hq, rfl, h.symm⟩))
      · exact .inr (.inl ⟨p, rfl, hr, rfl, by simpa using h⟩)
    · exact .inl ⟨p, rfl, hr, by simpa using h.symm⟩
  | edgeNotBinary => simp [hostStep] at h
  | clkStopped =>
    cases hp : s.phase <;> simp [hostStep, clockStopped, hp] at h
    · exact .inr (.inr (.inr (.inr (.inl ⟨rfl, rfl, h.symm⟩))))
    · exact .inr (.inr (.inr (.inl ⟨rfl, rfl, h.symm⟩)))
  | powerLoss => exact .inr (.inr (.inr (.inr (.inr ⟨rfl, by simpa [hostStep] using h.symm⟩))))

/-- A step is the host's next event, taken off the list. -/
theorem step_eq (s : State) : step s = hostStep (nextEvent s) (takeEvent s) := rfl

/-- With an event at the head of the list, that is the event. -/
theorem step_cons {s : State} {e : HostEvent} {es : List HostEvent} (h : s.events = e :: es) :
    step s = hostStep e { s with events := es } := by
  simp [step_eq, nextEvent, takeEvent, h]

/-- A step of a running engine at an edge that carries a request carries that request out. -/
theorem step_request {s : State} {q : Request} {es : List HostEvent} (hp : s.phase = .running)
    (h : s.events = .edge (.ofRequest q) :: es) :
    step s = exec (decode q.req q.wdata) { s with events := es } := by
  rw [step_cons h]
  simp [hostStep, risingEdge, hp]

/-! ### Runs -/

@[simp] theorem run_zero (s : State) : core.run 0 s = .next s := rfl

/-- A run begins with a step. -/
theorem run_succ {s t : State} (n : Nat) (h : step s = .next t) : core.run (n + 1) s = core.run n t := by
  have hc : core.step s = .next t := h
  refine (Host.Core.run.eq_2 core s n).trans ?_
  rw [hc]

/-- What the host sees of a run begins with the first step's response. -/
theorem observed_succ {s t : State} (n : Nat) (h : step s = .next t) :
    observed (n + 1) s = responseOf t :: observed n t := by
  simp only [observed, h]

end Sys2Proof.Machine
end

