-- ==== Sys2Proof/Laws/PerInstr.lean ====
section
/-!
SUPPORT. The family EncodesOwnRow: the encoding of a well-formed operation hits that operation's own row of the opcode map and no
row above it (30_encoding.md R62).
-/
namespace Sys2Proof.Laws.EncodesOwnRow

/-- The row of R62 that an operation belongs to. -/
def opcodeOf : Instr → Opcode
  | .idle => .idle
  | .wrData8 _ => .wrData8
  | .wrData16 _ => .wrData16
  | .wrData32 _ => .wrData32
  | .wrCtrl _ => .wrCtrl
  | .rdResult => .rdResult
  | .rdSum => .rdSum
  | .rdStatus => .rdStatus
  | .busErr _ _ _ => .busErr

/-- A well-formed operation's encoding has its own row as the first match. -/
def Statement (i : Instr) : Prop := i.wf = true → firstMatch (encode i).req = opcodeOf i

theorem idle : Statement .idle := fun _ => by decide

theorem wrData8 (w : Word) : Statement (.wrData8 w) := fun _ => show firstMatch 0x180#9 = .wrData8 by decide

theorem wrData16 (w : Word) : Statement (.wrData16 w) := fun _ => show firstMatch 0x1A0#9 = .wrData16 by decide

theorem wrData32 (w : Word) : Statement (.wrData32 w) := fun _ => show firstMatch 0x1C0#9 = .wrData32 by decide

theorem wrCtrl (w : Word) : Statement (.wrCtrl w) := fun _ => show firstMatch 0x1CC#9 = .wrCtrl by decide

theorem rdResult : Statement .rdResult := fun _ => by decide

theorem rdSum : Statement .rdSum := fun _ => by decide

theorem rdStatus : Statement .rdStatus := fun _ => by decide

theorem busErr (we : Bool) (size : BitVec 2) (addr : BitVec 5) : Statement (.busErr we size addr) := by
  unfold Statement opcodeOf
  revert we size addr
  decide

end Sys2Proof.Laws.EncodesOwnRow
end

