-- ==== Sys2Proof/Tests/Slice0.lean ====
section
/-!
SUPPORT. The model's own tests. Expected values come from spec/95_test_vectors.md (named V-… below) and from the rules' worked
examples; then the witnesses that the statements' hypotheses can be met.
-/
namespace Sys2Proof.Tests
open Sys2Proof.Machine

/-- A running engine with this ACC and ODD, its output ports at 0. -/
def engine (acc : Word) (odd : Bool) : State := { State.reset with acc := acc, odd := odd }

/-- What a test compares: the response (rsp, err, rdata) and the end state (ACC, ODD). -/
def seen : Host.Outcome State Fault Refusal → Option (Bool × Bool × Word × Word × Bool)
  | .next t => some (t.rsp, t.err, t.rdata, t.acc, t.odd)
  | .fault _ => none
  | .refused _ => none

/-- One edge with this request, from this state. -/
def edge (s : State) (req : ReqVec) (wdata : Word) : Host.Outcome State Fault Refusal :=
  step { s with events := [.edge (.ofRequest ⟨req, wdata⟩)] }

/-! ### Well-formedness: a BUSERR that is one of the seven legal requests is refused -/

theorem test_wf_refuses_wrData8 : (Instr.busErr true 0b00#2 0x00#5).wf = false := by decide
theorem test_wf_refuses_wrData16 : (Instr.busErr true 0b01#2 0x00#5).wf = false := by decide
theorem test_wf_refuses_wrData32 : (Instr.busErr true 0b10#2 0x00#5).wf = false := by decide
theorem test_wf_refuses_wrCtrl : (Instr.busErr true 0b10#2 0x0C#5).wf = false := by decide
theorem test_wf_refuses_rdResult : (Instr.busErr false 0b10#2 0x04#5).wf = false := by decide
theorem test_wf_refuses_rdSum : (Instr.busErr false 0b10#2 0x08#5).wf = false := by decide
theorem test_wf_refuses_rdStatus : (Instr.busErr false 0b10#2 0x10#5).wf = false := by decide
theorem test_wf_accepts_reserved_size : (Instr.busErr true 0b11#2 0x00#5).wf = true := by decide

/-! ### Decoding: words written out from the pattern column of R62 -/

theorem test_decode_idle : decode 0b0_1_11_11111#9 0xFFFFFFFF#32 = .idle := by decide
theorem test_decode_wrData8 : decode 0b1_1_00_00000#9 0xFFFFFF12#32 = .wrData8 0xFFFFFF12#32 := by decide
theorem test_decode_wrData16 : decode 0b1_1_01_00000#9 0x00000203#32 = .wrData16 0x00000203#32 := by decide
theorem test_decode_wrData32 : decode 0b1_1_10_00000#9 0x02030405#32 = .wrData32 0x02030405#32 := by decide
theorem test_decode_wrCtrl : decode 0b1_1_10_01100#9 0x00000001#32 = .wrCtrl 0x00000001#32 := by decide
theorem test_decode_rdResult : decode 0b1_0_10_00100#9 0xFFFFFFFF#32 = .rdResult := by decide
theorem test_decode_rdSum : decode 0b1_0_10_01000#9 0#32 = .rdSum := by decide
theorem test_decode_rdStatus : decode 0b1_0_10_10000#9 0#32 = .rdStatus := by decide
/-- V-ERR-9. -/
theorem test_decode_busErr : decode 0x1EC#9 1#32 = .busErr true 0b11#2 0x0C#5 := by decide

theorem test_table_word_feeds : decodeTableWord 16 0x180 = some (.wrData8 0#32) := by decide
theorem test_table_word_operand : decodeTableWord 48 0x0000_0001_01CC = some (.wrCtrl 1#32) := by decide
theorem test_table_word_stray : decodeTableWord 16 0x0380 = none := by decide

/-- Placed after reset, a table word runs as the first instruction (V-FEED-3: a zero byte flips ODD). -/
theorem test_placed_word_runs :
    seen (step (State.reset.withFetchWord 16 0x180)) = some (true, false, 0#32, 0#32, true) := by decide

/-! ### The operations -/

/-- V-FEED-4: WDATA[31:8] is ignored. -/
theorem test_wrData8_high :
    seen (edge (engine 0x00000000#32 false) 0x180#9 0xFFFFFF12#32) = some (true, false, 0#32, 0x00001200#32, true) := by decide
/-- V-FEED-2: a low byte completes a word. -/
theorem test_wrData8_low :
    seen (edge (engine 0x0000AB00#32 true) 0x180#9 0xCD#32) = some (true, false, 0#32, 0x0000ABCD#32, false) := by decide
/-- V-FEED-5: ODD = 1 straddle, WDATA[31:16] ignored. -/
theorem test_wrData16_straddles :
    seen (edge (engine 0x00001200#32 true) 0x1A0#9 0xABCD3456#32) = some (true, false, 0#32, 0x00006834#32, true) := by decide
/-- V-FEED-10: end-around carry at bit 31. -/
theorem test_wrData16_end_around :
    seen (edge (engine 0xFFFFFFFF#32 false) 0x1A0#9 0xFFFF#32) = some (true, false, 0#32, 0x0000FFFF#32, false) := by decide
/-- V-FEED-11. -/
theorem test_wrData32_two_words :
    seen (edge (engine 0x00000000#32 false) 0x1C0#9 0x4500003C#32) = some (true, false, 0#32, 0x0000453C#32, false) := by decide
/-- V-FEED-12: ODD = 1. -/
theorem test_wrData32_straddles :
    seen (edge (engine 0x00000100#32 true) 0x1C0#9 0x02030405#32) = some (true, false, 0#32, 0x00000906#32, true) := by decide
/-- V-CTL-1. -/
theorem test_wrCtrl_clears :
    seen (edge (engine 0x00001200#32 true) 0x1CC#9 0xFFFFFFFF#32) = some (true, false, 0#32, 0#32, false) := by decide
/-- V-CTL-3. -/
theorem test_wrCtrl_reserved_bits :
    seen (edge (engine 0x00001200#32 true) 0x1CC#9 0xFFFFFFFE#32) = some (true, false, 0#32, 0x00001200#32, true) := by decide
/-- V-CTL-6. -/
theorem test_rdResult_vector :
    seen (edge (engine 0x00024E17#32 false) 0x144#9 0#32) = some (true, false, 0x0000B1E6#32, 0x00024E17#32, false) := by decide
/-- V-CTL-10. -/
theorem test_rdResult_verifies :
    seen (edge (engine 0x0002FFFD#32 false) 0x144#9 0#32) = some (true, false, 0#32, 0x0002FFFD#32, false) := by decide
/-- V-CTL-7. -/
theorem test_rdSum_vector :
    seen (edge (engine 0x00024E17#32 false) 0x148#9 0#32) = some (true, false, 0x00004E19#32, 0x00024E17#32, false) := by decide
/-- V-CTL-11. -/
theorem test_rdStatus_odd :
    seen (edge (engine 0x0000AB00#32 true) 0x150#9 0#32) = some (true, false, 1#32, 0x0000AB00#32, true) := by decide
/-- V-CTL-14: an idle cycle takes the response away. -/
theorem test_idle_no_response :
    seen (edge { engine 0x0000AB00#32 true with rsp := true, err := true, rdata := 7#32 } 0x000#9 0xFFFFFFFF#32) =
      some (false, false, 0#32, 0x0000AB00#32, true) := by decide
/-- V-ERR-6: a byte write of CTRL does not clear. -/
theorem test_busErr_no_clear :
    seen (edge (engine 0x0000486C#32 false) 0x18C#9 1#32) = some (true, true, 0#32, 0x0000486C#32, false) := by decide
/-- V-ERR-15: a misaligned byte write feeds nothing. -/
theorem test_busErr_no_feed :
    seen (edge (engine 0x0000486C#32 false) 0x181#9 0xAB#32) = some (true, true, 0#32, 0x0000486C#32, false) := by decide

/-- V-ERR-11, V-ERR-13, V-ERR-14, V-ERR-8: the priorities of R103. -/
theorem test_cause_priorities :
    busErrorCause false 0b11#2 0x14#5 = some .unmapped ∧ busErrorCause false 0b10#2 0x1F#5 = some .misaligned ∧
    busErrorCause false 0b11#2 0x00#5 = some .direction ∧ busErrorCause true 0b11#2 0x00#5 = some .size := by decide

/-- V-RST-2: reset wins over a request at the same edge. -/
theorem test_reset_discards_request :
    seen (step { engine 0x00019ACD#32 true with events := [.edge ⟨true, true, true, 0b00#2, 0x00#5, 0xAB#32⟩] }) =
      some (false, false, 0#32, 0#32, false) := by decide

/-! ### The reference function and the host's side -/

/-- V-SRC-2. -/
theorem test_checksum_vector :
    checksum [0x45#8, 0x00#8, 0x00#8, 0x3C#8, 0x1C#8, 0x46#8, 0x40#8, 0x00#8, 0x40#8, 0x06#8, 0x00#8, 0x00#8, 0xAC#8, 0x10#8,
      0x0A#8, 0x63#8, 0xAC#8, 0x10#8, 0x0A#8, 0x0C#8] = 0xB1E6#16 := by decide
/-- V-REF-9: odd length with a carry. -/
theorem test_checksum_odd : checksum [0xAB#8, 0xCD#8, 0xEF#8] = 0x6531#16 := by decide
/-- V-REF-1. -/
theorem test_checksum_empty : checksum [] = 0xFFFF#16 := by decide
/-- V-SRC-3, Identification 0x1234, a payload of two bytes, source 10.0.0.1. -/
theorem test_header_checksum : checksum (ipv4Header 2 0x1234#16 0x0A000001#32) = 0xBC95#16 := by decide
/-- R68: two bytes remain, then one. -/
theorem test_feed_groups :
    feedRequests [1#8, 2#8, 3#8, 4#8, 5#8, 6#8, 7#8] =
      [⟨0x1C0#9, 0x01020304#32⟩, ⟨0x1A0#9, 0x0506#32⟩, ⟨0x180#9, 0x07#32⟩] := by decide
/-- R67: `raw.wr 2, 0x04, 5 ; comment`. -/
theorem test_parse_raw :
    parseLine ['r', 'a', 'w', '.', 'w', 'r', ' ', '2', ',', ' ', '0', 'x', '0', '4', ',', ' ', '5', ' ', ';', 'c'] =
      some ⟨some (.request (.rawWr 2 4 5)), none⟩ := by decide
/-- R67: `rd.sum -> 0x4e`. -/
theorem test_parse_read :
    parseLine ['r', 'd', '.', 's', 'u', 'm', ' ', '-', '>', ' ', '0', 'x', '4', 'e'] =
      some ⟨some (.request .rdSum), some 0x4E⟩ := by decide
/-- R91's worked example begins `feed 45 00 00 3C`; a number of R67 stands for a byte too. -/
theorem test_parse_feed :
    parseLine ['f', 'e', 'e', 'd', ' ', '4', '5', ' ', '0', '0', ' ', '3', 'C', ' ', '0', 'x', 'A', 'B', ' ', '1'] =
      some ⟨some (.feed [0x45#8, 0x00#8, 0x3C#8, 0xAB#8, 0x01#8]), none⟩ := by decide

/-! ### Witnesses: for each statement with hypotheses, values that meet them -/

theorem witness_DecodeOfEncodeIsTheInstruction :
    (Instr.busErr false 0b11#2 0x14#5).wf = true ∧ (Instr.wrData8 0xFFFFFF12#32).wf = true ∧ Instr.idle.wf = true := by decide

theorem witness_EncodeOfDecodeKeepsWhatIsUsed :
    (0x1FF#9).getLsbD 8 = true ∧ (0x0FF#9).getLsbD 8 = false ∧
    (0x180#9 : ReqVec) = 0x180#9 ∧ decode 0x1FF#9 0#32 = .busErr true 0b11#2 0x1F#5 := by decide

/-- One value for each clause: offsets 0x01, 0x14, 0x0C, 0x10, 0x00, 0x0C and 0x04. -/
theorem witness_BusErrorCauseIsTheFirstThatHolds :
    (0x01#5).extractLsb' 0 2 ≠ 0#2 ∧ (0x14#5 = 0x14#5 ∨ 0x14#5 = 0x18#5 ∨ 0x14#5 = 0x1C#5) ∧
    busErrorCause false 0b10#2 0x0C#5 = some .direction ∧ busErrorCause true 0b10#2 0x10#5 = some .direction ∧
    busErrorCause true 0b11#2 0x00#5 = some .size ∧ busErrorCause true 0b01#2 0x0C#5 = some .size ∧
    busErrorCause false 0b00#2 0x04#5 = some .size := by decide

/-- The ports carrying `wr.d8 0xAB`, with rst as given. -/
def ports (rst req : Bool) : PortInputs := ⟨rst, req, true, 0b00#2, 0x00#5, 0xAB#32⟩

theorem witness_StepRunsTheDecodedRequest :
    let s := fun p : PortInputs => { engine 5#32 true with events := [.edge p] }
    (s (ports true true)).phase = .running ∧ (s (ports true true)).events = [.edge (ports true true)] ∧
    (ports true true).rst = true ∧ (ports false true).rst = false ∧ (ports false true).req = true ∧
    (ports false false).rst = false ∧ (ports false false).req = false := by decide

theorem witness_PlacedTableWordRunsNext :
    State.reset.phase = .running ∧ decodeTableWord 16 0x144 = some .rdResult := by decide

theorem witness_EndedHostPresentsNoRequest : State.reset.phase = .running ∧ State.reset.events = [] := by decide

theorem witness_ResetEdgeSetsTheResetValues :
    { engine 5#32 true with phase := .unreset, events := [.edge (ports true true)] }.events = [.edge (ports true true)] ∧
    (ports true true).rst = true := by decide

/-- An engine that has not been reset, with this event next. -/
def unresetEngine (e : HostEvent) : State := { engine 5#32 true with phase := .unreset, events := [e] }

/-- One state for each clause. -/
theorem witness_ClockStopAndPowerLoss :
    ({ engine 5#32 true with events := [.clkStopped] }.events = [.clkStopped] ∧
      { engine 5#32 true with events := [.clkStopped] }.phase = .running) ∧
    { engine 5#32 true with events := [.powerLoss] }.events = [.powerLoss] ∧
    (∀ p, (unresetEngine (.edge p)).events = [.edge p] ∧ (unresetEngine (.edge p)).phase = .unreset) ∧
    ((ports false true).rst = false ∧ (ports false true).req = true) ∧
    ((ports false false).rst = false ∧ (ports false false).req = false) ∧ (ports true true).rst = true :=
  ⟨by decide, by decide, fun _ => ⟨rfl, rfl⟩, by decide, by decide, by decide⟩

theorem witness_NonBinaryInputsAreRefused :
    { engine 5#32 true with events := [.edgeNotBinary] }.events = [.edgeNotBinary] := by decide

theorem witness_RunningEngineNeverStops :
    State.reset.phase = .running ∧ nextEvent State.reset ≠ .edgeNotBinary ∧ nextEvent State.reset ≠ .powerLoss := by decide

theorem witness_WrData16FeedsTwoBytes : (engine 5#32 false).odd = false := by decide

theorem witness_WrData32FeedsFourBytes : (engine 0xFFFFFFFF#32 false).odd = false := by decide

theorem witness_WdataAboveTheSizeIsIgnored :
    (0x00000012#32).extractLsb' 0 8 = (0xFFFFFF12#32).extractLsb' 0 8 ∧
    (0x00003456#32).extractLsb' 0 16 = (0xABCD3456#32).extractLsb' 0 16 ∧ (0x144#9).getLsbD 7 = false := by decide

theorem witness_WrCtrlClearsOnBitZero : (0xFFFFFFFF#32).getLsbD 0 = true ∧ (0xFFFFFFFE#32).getLsbD 0 = false := by decide

theorem witness_IdleGivesNoResponse : (0x0FF#9).getLsbD 8 = false := by decide

theorem witness_ResultAfterClearIsFFFF : (0x00000001#32).getLsbD 0 = true := by decide

/-- The stream 01 02 03 and the state it leaves (V-FEED-6). -/
theorem tracks_example : tracks [0x01#8, 0x02#8, 0x03#8] (engine 0x00000402#32 true) := ⟨by decide, by decide⟩

theorem witness_SideEffectsOfEachAccess :
    (0x00000001#32).getLsbD 0 = true ∧ (0x00000000#32).getLsbD 0 = false ∧
    tracks [0x01#8, 0x02#8, 0x03#8] (engine 0x00000402#32 true) := ⟨by decide, by decide, tracks_example⟩

/-- An engine that has been fed 12, with these ports at its next edge. -/
def fedEngine (p : PortInputs) : State := { engine 0x00001200#32 true with events := [.edge p] }

/-- A DATA write, CLEAR and reset, each changing ACC and ODD. -/
theorem witness_OnlyFeedClearAndResetChangeTheStream :
    (fedEngine (ports false true)).phase = .running ∧
    seen (step (fedEngine (ports false true))) = some (true, false, 0#32, 0x000012AB#32, false) ∧
    seen (step (fedEngine (.ofRequest ⟨0x1CC#9, 1#32⟩))) = some (true, false, 0#32, 0#32, false) ∧
    seen (step (fedEngine (ports true true))) = some (false, false, 0#32, 0#32, false) :=
  ⟨by decide, by decide, by decide, by decide⟩

theorem witness_StepKeepsOutputsSettled :
    outputsSettled State.reset ∧ ∃ t, step State.reset = .next t := ⟨by unfold outputsSettled; decide, _, rfl⟩

theorem witness_AccumulatorTracksTheStream : tracks [0x01#8, 0x02#8, 0x03#8] (engine 0x00000402#32 true) := tracks_example

theorem witness_StepTracksTheStream :
    tracks [] State.reset ∧ ∃ t, step State.reset = .next t ∧ t.phase = .running :=
  ⟨⟨by decide, by decide⟩, _, rfl, by decide⟩

theorem witness_ReadsGiveTheChecksumOfTheStream : tracks [0x01#8, 0x02#8, 0x03#8] (engine 0x00000402#32 true) := tracks_example

theorem witness_GroupingOfDataWrites :
    (∀ i ∈ [Instr.wrData16 0xABCD3456#32, .wrData8 1#32, .wrData32 0x02030405#32],
      ∃ w, i = .wrData8 w ∨ i = .wrData16 w ∨ i = .wrData32 w) ∧ State.reset.phase = .running := by
  refine ⟨?_, by decide⟩
  simp

/-- Both premises, each with two different sequences of writes. At ODD = 1: 02 03 04 after 01, and 02 after 03 04 01.
At ODD = 0: 0001 0002 in one write, 0002 0001 in two. -/
theorem witness_StateDependsOnTotalAndLength :
    (∀ i ∈ [Instr.wrData8 2#32, .wrData16 0x0304#32], ∃ w, i = .wrData8 w ∨ i = .wrData16 w ∨ i = .wrData32 w) ∧
    (∀ i ∈ [Instr.wrData8 2#32], ∃ w, i = .wrData8 w ∨ i = .wrData16 w ∨ i = .wrData32 w) ∧
    (engine 0x0100#32 true).phase = .running ∧ (engine 0x0404#32 true).phase = .running ∧
    tracks [1#8] (engine 0x0100#32 true) ∧ tracks [3#8, 4#8, 1#8] (engine 0x0404#32 true) ∧
    ([Instr.wrData8 2#32, .wrData16 0x0304#32].flatMap fun i => streamAfter i []) = [2#8, 3#8, 4#8] ∧
    ([Instr.wrData8 2#32].flatMap fun i => streamAfter i []) = [2#8] ∧
    total ([1#8] ++ [2#8, 3#8, 4#8]) = total ([3#8, 4#8, 1#8] ++ [2#8]) ∧
    ((engine 0xFFFFFFFF#32 false).odd = false ∧
      ([Instr.wrData32 0x00010002#32].flatMap fun i => streamAfter i []) = [0#8, 1#8, 0#8, 2#8] ∧
      ([Instr.wrData16 2#32, .wrData16 1#32].flatMap fun i => streamAfter i []) = [0#8, 2#8, 0#8, 1#8] ∧
      total [0#8, 1#8, 0#8, 2#8] = total [0#8, 2#8, 0#8, 1#8]) :=
  ⟨by simp, by simp, rfl, rfl, ⟨by decide, by decide⟩, ⟨by decide, by decide⟩, by decide, by decide, by decide,
    rfl, by decide, by decide, by decide⟩

theorem witness_FeedExpansionFeedsTheBuffer :
    let s := { engine 0x00000402#32 true with events := edgesOf (feedRequests [4#8, 5#8, 6#8]) ++ [.clkStopped] }
    s.phase = .running ∧ tracks [0x01#8, 0x02#8, 0x03#8] s ∧ s.events = edgesOf (feedRequests [4#8, 5#8, 6#8]) ++ [.clkStopped] :=
  ⟨rfl, ⟨by decide, by decide⟩, rfl⟩

theorem witness_HostProtocolComputesTheChecksum :
    (∀ i ∈ [Instr.wrData16 0x0102#32, .wrData8 3#32], ∃ w, i = .wrData8 w ∨ i = .wrData16 w ∨ i = .wrData32 w) ∧
    ([Instr.wrData16 0x0102#32, .wrData8 3#32].flatMap fun i => streamAfter i []) = [1#8, 2#8, 3#8] ∧
    State.reset.phase = .running ∧ (1#32).getLsbD 0 = true ∧ tracks [] State.reset :=
  ⟨by simp, by decide, rfl, by decide, ⟨by decide, by decide⟩⟩

theorem witness_CksumPseudoReturnsTheChecksum :
    let s := { engine 5#32 true with events := edgesOf (cksumRequests [1#8, 2#8, 3#8]) ++ [HostEvent.clkStopped] }
    s.phase = .running ∧ s.events = edgesOf (cksumRequests [1#8, 2#8, 3#8]) ++ [HostEvent.clkStopped] := ⟨rfl, rfl⟩

theorem witness_HeaderChecksumVerifiesToZero : 1480 ≤ 1480 ∧ (engine 5#32 true).phase = .running := by decide

/-- 0xFFFF and 0x1FFFE fold to the same 16 bits. -/
theorem witness_HiddenAccumulatorIsNeverSeen :
    sameButHiddenAcc (engine 0x0000FFFF#32 true) (engine 0x0001FFFE#32 true) := ⟨by decide, rfl⟩

/-- The same two states, at an IDLE cycle and at a request. -/
theorem witness_StepKeepsTheAccumulatorHidden :
    sameButHiddenAcc (engine 0x0000FFFF#32 true) (engine 0x0001FFFE#32 true) ∧
    sameButHiddenAcc { engine 0x0000FFFF#32 true with events := [.edge (ports false true)] }
      { engine 0x0001FFFE#32 true with events := [.edge (ports false true)] } := ⟨⟨by decide, rfl⟩, ⟨by decide, rfl⟩⟩

/-- V-SRC-1: an even-offset field and an odd-offset field, each holding its checksum. -/
theorem witness_VerificationLaw :
    (checksum [0x00#8, 0x00#8, 0x7A#8] = 0x85FF#16 ∧ [0x85#8, 0xFF#8, 0x7A#8][0]? = some ((0x85FF#16).extractLsb' 8 8)) ∧
    (checksum [0x7A#8, 0x00#8, 0x00#8] = 0x85FF#16 ∧ [0x7A#8, 0xFF#8, 0x85#8][1]? = some ((0x85FF#16).extractLsb' 0 8)) := by decide

theorem witness_ByteSwapLaw : [0x45#8, 0x00#8, 0x00#8, 0x3C#8].length % 2 = 0 := by decide

theorem witness_ResultPlacement : 1 + 1 < [0x7A#8, 0x00#8, 0x00#8].length := by decide

/-- BASE = 64: the window's last byte is in it, the bytes before and after it are not. -/
theorem witness_HostViewDoesNotDependOnBase :
    (⟨64⟩ : Config).wf = true ∧ windowOffset ⟨64⟩ 95 = some 0x1F#5 ∧ windowOffset ⟨64⟩ 96 = none ∧ windowOffset ⟨64⟩ 63 = none := by
  decide

end Sys2Proof.Tests
end

section
/-!
PROOFS, 00_scope.md. The residue that the reference function keeps (R10), what follows for its sums and for the engine's reads, and the
host's view of the window.
-/
namespace Sys2Proof.Machine

/-! ### End-around addition at any width (R9) -/

/-- The low bits of an (n+1)-bit sum of n-bit values, plus its carry, fit n bits. -/
theorem endAround_lt {n : Nat} (a b : BitVec n) :
    ((a.setWidth (n + 1) + b.setWidth (n + 1)).extractLsb' 0 n).toNat +
      ((a.setWidth (n + 1) + b.setWidth (n + 1)).extractLsb' n 1).toNat < 2 ^ n := by
  have ha := a.isLt
  have hb := b.isLt
  have hsum : (a.setWidth (n + 1) + b.setWidth (n + 1)).toNat = a.toNat + b.toNat := by
    rw [BitVec.toNat_add, BitVec.toNat_setWidth_of_le (by omega), BitVec.toNat_setWidth_of_le (by omega),
      Nat.mod_eq_of_lt (by omega)]
  simp only [BitVec.extractLsb'_toNat, hsum, Nat.shiftRight_eq_div_pow, Nat.pow_zero, Nat.div_one]
  obtain hlt | hge := Nat.lt_or_ge (a.toNat + b.toNat) (2 ^ n)
  · rw [Nat.mod_eq_of_lt hlt, Nat.div_eq_of_lt hlt]
    omega
  · rw [Nat.mod_eq_sub_mod hge, Nat.mod_eq_of_lt (by omega)]
    omega

/-- So adding the carry back is an addition of numbers. -/
theorem endAround_toNat {n : Nat} (hn : 0 < n) (a b : BitVec n) :
    ((a.setWidth (n + 1) + b.setWidth (n + 1)).extractLsb' 0 n +
      ((a.setWidth (n + 1) + b.setWidth (n + 1)).extractLsb' n 1).setWidth n).toNat =
    ((a.setWidth (n + 1) + b.setWidth (n + 1)).extractLsb' 0 n).toNat +
      ((a.setWidth (n + 1) + b.setWidth (n + 1)).extractLsb' n 1).toNat := by
  rw [BitVec.toNat_add, BitVec.toNat_setWidth_of_le hn, Nat.mod_eq_of_lt (endAround_lt a b)]

/-! ### The residue law (R10) -/

/-- The residue at 16 bits is the one 16-bit number congruent to T modulo 65535 that is 0 only with T. -/
theorem eq_eacResidue_iff {x T : Nat} :
    x = eacResidue 16 T ↔ x < 2 ^ 16 ∧ x % 65535 = T % 65535 ∧ (x = 0 ↔ T = 0) := by
  unfold eacResidue
  split <;> omega

/-- Fold is the residue at 16 bits: each turn of its loop keeps the residue, and a number below 2^16 is its own. -/
theorem fold_eq_eacResidue (T : Nat) : fold T = eacResidue 16 T := by
  induction T using Nat.strong_induction_on with
  | _ T ih =>
    rw [fold_eq]
    split
    next hge =>
      have hturn := ih (T % 2 ^ 16 + T / 2 ^ 16) (by omega)
      rw [eq_eacResidue_iff] at hturn ⊢
      omega
    next hlt =>
      rw [eq_eacResidue_iff]
      omega

theorem fold_lt (T : Nat) : fold T < 2 ^ 16 := (eq_eacResidue_iff.1 (fold_eq_eacResidue T)).1

theorem fold_mod (T : Nat) : fold T % 65535 = T % 65535 := (eq_eacResidue_iff.1 (fold_eq_eacResidue T)).2.1

@[simp] theorem fold_eq_zero_iff (T : Nat) : fold T = 0 ↔ T = 0 := (eq_eacResidue_iff.1 (fold_eq_eacResidue T)).2.2

/-- At a state that stands for a stream, the engine's fold is the reference function's (10_state.md R23). -/
theorem fold16_toNat_of_tracks {S : List Byte} {s : State} (h : tracks S s) : (fold16 s.acc).toNat = fold (total S) := by
  obtain ⟨hacc, -⟩ := h
  rw [fold16_residue hacc, fold_eq_eacResidue]

theorem checksum_toNat (B : List Byte) : (checksum B).toNat = 65535 - fold (total B) := by
  rw [checksum, BitVec.toNat_not, BitVec.toNat_ofNat, Nat.mod_eq_of_lt (fold_lt _)]

/-- ~Fold is 0x0000 where Fold is 0xFFFF, the residue of the positive multiples of 65535. -/
theorem checksum_eq_zero_iff (B : List Byte) : checksum B = 0x0000#16 ↔ 0 < total B ∧ total B % 65535 = 0 := by
  have hlt := fold_lt (total B)
  have hmod := fold_mod (total B)
  have hzero := fold_eq_zero_iff (total B)
  rw [← BitVec.toNat_inj, checksum_toNat, BitVec.toNat_ofNat]
  omega

theorem checksum_eq_ones_iff (B : List Byte) : checksum B = 0xFFFF#16 ↔ total B = 0 := by
  have hlt := fold_lt (total B)
  rw [← BitVec.toNat_inj, checksum_toNat, BitVec.toNat_ofNat, ← fold_eq_zero_iff]
  omega

theorem byte_toNat_eq_zero_iff (b : Byte) : b.toNat = 0 ↔ b = 0x00#8 := by
  rw [BitVec.toNat_eq, BitVec.toNat_zero]

/-- Every word counts with its full value, so only zero bytes give total 0. -/
theorem total_eq_zero_iff (B : List Byte) : total B = 0 ↔ ∀ b ∈ B, b = 0x00#8 := by
  match B with
  | [] => simp
  | [a] => simp [byte_toNat_eq_zero_iff]
  | a :: b :: B =>
    simp only [total_cons_cons, List.forall_mem_cons, Nat.add_eq_zero_iff, total_eq_zero_iff B, byte_toNat_eq_zero_iff,
      Nat.mul_eq_zero, and_assoc, OfNat.ofNat_ne_zero, or_false]

/-- Settles O46: Fold is the residue at 16 bits, and a total is 0 for zero bytes only. -/
theorem residueLaw : Obligations.ResidueLaw := by
  refine ⟨fun T => ?_, fun B => ⟨?_, ?_, checksum_eq_zero_iff B⟩⟩
  · exact fold_eq_eacResidue T
  · rw [fold_eq_zero_iff, total_eq_zero_iff]
  · rw [checksum_eq_ones_iff, total_eq_zero_iff]

/-- Settles O45: both additions are the end-around addition of `endAround_lt`, and fold16 and Fold keep the same residue. -/
theorem endAroundAdditionsNeverCarryTwice : Obligations.EndAroundAdditionsNeverCarryTwice := by
  refine ⟨fun a b => ⟨endAround_lt a b, endAround_toNat (by decide) a b⟩, fun x => ⟨?_, ?_, ?_⟩⟩
  · exact endAround_lt (x.extractLsb' 16 16) (x.extractLsb' 0 16)
  · exact endAround_toNat (by decide) (x.extractLsb' 16 16) (x.extractLsb' 0 16)
  · rw [fold16_residue (toNat_eq_eacResidue x), fold_eq_eacResidue]

/-! ### Reads (41_control_status.md R91 to R93) -/

/-- Settles O36: the three reads give fold16(ACC), its complement and ODD, which `tracks` ties to the stream. -/
theorem readsGiveTheChecksumOfTheStream : Obligations.ReadsGiveTheChecksumOfTheStream := by
  intro S s h
  have hfold := fold16_toNat_of_tracks h
  obtain ⟨-, hodd⟩ := h
  refine ⟨_, _, _, exec_rdResult s, ?_, exec_rdSum s, ?_, exec_rdStatus s, ?_⟩
  · rw [respond_rdata, resultValue, checksum, ← hfold, BitVec.ofNat_toNat, BitVec.setWidth_eq]
  · rw [respond_rdata, sumValue, BitVec.toNat_setWidth_of_le (by decide), hfold]
  · rw [respond_rdata, statusValue, hodd]
    by_cases hpar : S.length % 2 = 1 <;> simp [hpar]

/-! ### The verification law (R12) -/

/-- A byte counts with weight 256 at an even offset and with weight 1 at an odd one. -/
theorem total_set_zero {B : List Byte} {f : Nat} {b : Byte} (h : B[f]? = some b) :
    total B = total (B.set f 0x00#8) + (if f % 2 = 1 then b.toNat else b.toNat * 256) := by
  match B, f with
  | [a], 0 =>
    obtain rfl : a = b := by simpa using h
    simp
  | a :: c :: B, 0 =>
    obtain rfl : a = b := by simpa using h
    rw [List.set_cons_zero, total_cons_cons, total_cons_cons, BitVec.toNat_zero, if_neg (by decide)]
    omega
  | a :: c :: B, 1 =>
    obtain rfl : c = b := by simpa using h
    rw [List.set_cons_succ, List.set_cons_zero, total_cons_cons, total_cons_cons, BitVec.toNat_zero, if_pos rfl]
    omega
  | a :: c :: B, f + 2 =>
    have ih := total_set_zero (B := B) (f := f) (b := b) (by simpa using h)
    simp only [List.set_cons_succ, total_cons_cons, ih, Nat.add_mod_right]
    omega

/-- What a 2-byte field adds to the total: its first byte is the high one at an even offset, its second at an odd one. -/
theorem total_field {B : List Byte} {f : Nat} {x y : Byte} (hx : B[f]? = some x) (hy : B[f + 1]? = some y) :
    total B = total ((B.set f 0x00#8).set (f + 1) 0x00#8) +
      (if f % 2 = 1 then y.toNat * 256 + x.toNat else x.toNat * 256 + y.toNat) := by
  have hy' : (B.set f 0x00#8)[f + 1]? = some y := by rwa [List.getElem?_set_ne (by omega)]
  rw [total_set_zero hx, total_set_zero hy']
  split <;> split <;> omega

/-- A 16-bit value is its two bytes. -/
theorem half_bytes_toNat (c : Half) : (c.extractLsb' 8 8).toNat * 256 + (c.extractLsb' 0 8).toNat = c.toNat := by
  have hc := c.isLt
  simp only [BitVec.extractLsb'_toNat, Nat.shiftRight_eq_div_pow]
  omega

/-- Adding its own checksum to a total leaves a positive multiple of 65535. -/
theorem checksum_eq_zero_of_total {B B₀ : List Byte} (h : total B = total B₀ + (checksum B₀).toNat) :
    checksum B = 0x0000#16 := by
  have hlt := fold_lt (total B₀)
  have hmod := fold_mod (total B₀)
  have hzero := fold_eq_zero_iff (total B₀)
  rw [checksum_toNat] at h
  rw [checksum_eq_zero_iff]
  omega

/-- Settles O47: either way the field adds the checksum's value to the total of the buffer with the field zero. -/
theorem verificationLaw : Obligations.VerificationLaw := by
  refine ⟨fun B f _ => ⟨fun hf hx hy => ?_, fun hf hx hy => ?_⟩, by decide, by decide⟩
  · have htotal := total_field hx hy
    rw [if_neg (by omega), half_bytes_toNat] at htotal
    exact checksum_eq_zero_of_total htotal
  · have htotal := total_field hx hy
    rw [if_pos hf, half_bytes_toNat] at htotal
    exact checksum_eq_zero_of_total htotal

/-! ### The byte-swap law (R13) -/

theorem swap16_toNat (x : Half) : (swap16 x).toNat = x.toNat % 256 * 256 + x.toNat / 256 := by
  have hx := x.isLt
  simp only [swap16, append_toNat, BitVec.extractLsb'_toNat, Nat.shiftRight_eq_div_pow]
  omega

/-- Exchanging the bytes of every pair multiplies the total by 256 modulo 65535, since 256 * 256 is 1 there. -/
theorem total_swapPairs_mod {B : List Byte} (h : B.length % 2 = 0) : total (swapPairs B) % 65535 = total B * 256 % 65535 := by
  induction B using swapPairs.induct with
  | case1 a b B ih =>
    have ih := ih (by simpa only [List.length_cons, Nat.add_assoc, Nat.add_mod_right] using h)
    simp only [swapPairs, total_cons_cons]
    omega
  | case2 a => simp at h
  | case3 => rfl

theorem mem_swapPairs {B : List Byte} {x : Byte} : x ∈ swapPairs B ↔ x ∈ B := by
  induction B using swapPairs.induct with
  | case1 a b B ih =>
    simp only [swapPairs, List.mem_cons, ih]
    exact or_left_comm
  | case2 a => rfl
  | case3 => rfl

/-- Exchanging the bytes of Fold also multiplies by 256 modulo 65535 and keeps 0, so both have one residue. -/
theorem fold_total_swapPairs {B : List Byte} (h : B.length % 2 = 0) :
    fold (total (swapPairs B)) = fold (total B) % 256 * 256 + fold (total B) / 256 := by
  have hswap := total_swapPairs_mod h
  have hkeep : total (swapPairs B) = 0 ↔ total B = 0 := by simp only [total_eq_zero_iff, mem_swapPairs]
  have hlt := fold_lt (total B)
  have hmod := fold_mod (total B)
  have hzero := fold_eq_zero_iff (total B)
  rw [fold_eq_eacResidue (total (swapPairs B)), eq_comm, eq_eacResidue_iff]
  omega

/-- Settles O48: exchanging the bytes of Fold exchanges those of its complement. -/
theorem byteSwapLaw : Obligations.ByteSwapLaw := by
  intro B h
  have hlt := fold_lt (total B)
  rw [← BitVec.toNat_inj, swap16_toNat, checksum_toNat, checksum_toNat, fold_total_swapPairs h]
  omega

/-! ### The host's view of the window (R5, R7, 20_memory.md R41) -/

@[simp] theorem windowOffset_base_add (c : Config) (addr : BitVec 5) : windowOffset c (c.base + addr.toNat) = some addr := by
  have haddr := addr.isLt
  rw [windowOffset, if_pos ⟨by omega, by simp only [Config.windowBytes]; omega⟩, Nat.add_sub_cancel_left,
    BitVec.ofNat_toNat, BitVec.setWidth_eq]

theorem windowOffset_outside {c : Config} {a : Nat} (h : a < c.base ∨ c.base + 32 ≤ a) : windowOffset c a = none := by
  rw [windowOffset, if_neg (by simp only [Config.windowBytes]; omega)]

/-- An access inside the window is the request with its offset and its size code. -/
theorem memAccess_inside {n : Nat} {size : BitVec 2} (hsize : sizeCode n = some size) (c : Config) (we : Bool)
    (addr : BitVec 5) (v : Word) :
    memAccess c we (c.base + addr.toNat) n v = some ⟨mkReq true we size addr, v⟩ := by
  simp [memAccess, hsize]

theorem memAccess_outside {c : Config} {a : Nat} (h : a < c.base ∨ c.base + 32 ≤ a) (we : Bool) (n : Nat) (v : Word) :
    memAccess c we a n v = none := by
  simp [memAccess, windowOffset_outside h]

/-- Settles O50: BASE cancels in the offset of an access inside the window. -/
theorem hostViewDoesNotDependOnBase : Obligations.HostViewDoesNotDependOnBase := by
  refine fun c addr v _ => ⟨fun n size hn => ?_, fun a n ha => ⟨memAccess_outside ha true n v, memAccess_outside ha false n 0#32⟩⟩
  have hsize : sizeCode n = some size := by
    obtain ⟨rfl, rfl⟩ | ⟨rfl, rfl⟩ | ⟨rfl, rfl⟩ := hn <;> rfl
  exact ⟨memAccess_inside hsize c true addr v, 0#32, memAccess_inside hsize c false addr 0#32⟩

end Sys2Proof.Machine
end

section
/-!
PROOFS, 10_state.md. What every operation and every step keep: the stream that ACC and ODD stand for (R23, R24), and the indifference of
the engine to what ACC holds beyond fold16(ACC) (R31); the values after reset (R30) and after CLEAR.
-/
namespace Sys2Proof.Machine

/-! ### The events, one equation each (20_memory.md R40, 60_exceptions.md R111, 70_reset_and_hazards.md R120, R121) -/

section
variable {p : PortInputs} {s : State}

theorem hostStep_edge_reset (hrst : p.rst = true) (s : State) : hostStep (.edge p) s = .next (resetEngine s) := by
  simp [hostStep, risingEdge, hrst]

theorem hostStep_edge_running (hrst : p.rst = false) (hp : s.phase = .running) :
    hostStep (.edge p) s = exec p.instr s := by
  simp [hostStep, risingEdge, hrst, hp]

theorem hostStep_edge_unreset_request (hrst : p.rst = false) (hreq : p.req = true) (hp : s.phase = .unreset) :
    hostStep (.edge p) s = .refused .beforeFirstReset := by
  simp [hostStep, risingEdge, hrst, hreq, hp]

theorem hostStep_edge_unreset_idle (hrst : p.rst = false) (hreq : p.req = false) (hp : s.phase = .unreset) :
    hostStep (.edge p) s = .next (unspecify s) := by
  simp [hostStep, risingEdge, hrst, hreq, hp]

theorem hostStep_clkStopped_running (hp : s.phase = .running) : hostStep .clkStopped s = .next s := by
  simp [hostStep, clockStopped, hp]

theorem hostStep_clkStopped_unreset (hp : s.phase = .unreset) : hostStep .clkStopped s = .next (unspecify s) := by
  simp [hostStep, clockStopped, hp]

end

/-! ### The stream (R23, R24) -/

/-- Every operation completes (60_exceptions.md R100). -/
theorem exec_completes (i : Instr) (s : State) : ∃ t, exec i s = .next t := by
  cases i <;> exact ⟨_, rfl⟩

@[simp] theorem tracks_respond {S : List Byte} {s : State} {v : Word} : tracks S (respond s v) ↔ tracks S s := Iff.rfl
@[simp] theorem tracks_takeEvent {S : List Byte} {s : State} : tracks S (takeEvent s) ↔ tracks S s := Iff.rfl

/-- An operation keeps the state in step with the stream: a DATA write feeds what R24 appends, CLEAR empties both, the rest only respond. -/
theorem exec_keeps_tracks {S : List Byte} {s t : State} {i : Instr} (hs : tracks S s) (h : exec i s = .next t) :
    tracks (streamAfter i S) t := by
  cases i with
  | wrData8 w => cases h; exact tracks_feedBytes hs (dataBytes8 w)
  | wrData16 w => cases h; exact tracks_feedBytes hs (dataBytes16 w)
  | wrData32 w => cases h; exact tracks_feedBytes hs (dataBytes32 w)
  | wrCtrl w =>
    cases h
    cases hw : ctrlClear w
    · simpa [streamAfter, hw] using hs
    · simpa [streamAfter, hw] using tracks_nil (clearStream_acc s) (clearStream_odd s)
  | idle | rdResult | rdSum | rdStatus | busErr => cases h; exact hs

/-- At a state that stands for a stream, the complement of the fold is the stream's checksum. -/
theorem not_fold16_of_tracks {S : List Byte} {s : State} (h : tracks S s) : ~~~fold16 s.acc = checksum S := by
  rw [checksum, ← fold16_toNat_of_tracks h, BitVec.ofNat_toNat, BitVec.setWidth_eq]

/-- Settles O34: `exec_keeps_tracks`, and the fold of a state that stands for a stream. -/
theorem accumulatorTracksTheStream : Obligations.AccumulatorTracksTheStream := by
  refine ⟨tracks_nil rfl rfl, fun S s i hs => ?_⟩
  obtain ⟨t, ht⟩ := exec_completes i s
  have htracks := exec_keeps_tracks hs ht
  exact ⟨t, ht, htracks, fold16_toNat_of_tracks htracks, not_fold16_of_tracks htracks⟩

/-- Settles O35: of the events that lead to a running state only reset and an operation act on the stream, and ACC and ODD alike. -/
theorem stepTracksTheStream : Obligations.StepTracksTheStream := by
  intro S s t hs h ht
  rw [step_eq] at h
  obtain ⟨p, he, hrst, rfl⟩ | ⟨p, he, hrst, hp, hexec⟩ | ⟨_, _, _, _, _, rfl⟩ | ⟨he, hp, rfl⟩ | ⟨_, _, rfl⟩ |
    ⟨_, rfl⟩ := hostStep_cases h
  case inl =>
    rw [he, streamAfterEvent, if_pos hrst]
    exact tracks_nil rfl rfl
  case inr.inl =>
    rw [he, streamAfterEvent, if_neg (by simp [hrst])]
    exact exec_keeps_tracks (tracks_takeEvent.2 (hs hp)) hexec
  case inr.inr.inr.inl =>
    rw [he, streamAfterEvent]
    exact tracks_takeEvent.2 (hs hp)
  all_goals simp at ht

/-! ### What changes the stream of a running engine (R21, R22) -/

section
open Laws.EncodesOwnRow (opcodeOf)

/-- The row that a request hits is the row of the operation it decodes to (30_encoding.md R62). -/
theorem firstMatch_eq_opcodeOf_decode (r : ReqVec) (w : Word) : firstMatch r = opcodeOf (decode r w) := by
  unfold decode
  cases firstMatch r <;> rfl

/-- A write of CTRL carries the WDATA on the ports. -/
theorem eq_of_decode_eq_wrCtrl {r : ReqVec} {w v : Word} (h : decode r w = .wrCtrl v) : w = v := by
  have hrow := firstMatch_eq_opcodeOf_decode r w
  rw [h] at hrow
  rw [decode, hrow] at h
  exact Instr.wrCtrl.inj h

/-- A request that hits a DATA row is a write of DATA with a legal size (20_memory.md R42). -/
theorem fields_of_firstMatch_wrData {r we : Bool} {size : BitVec 2} {addr : BitVec 5}
    (h : firstMatch (mkReq r we size addr) = .wrData8 ∨ firstMatch (mkReq r we size addr) = .wrData16 ∨
      firstMatch (mkReq r we size addr) = .wrData32) :
    r = true ∧ we = true ∧ addr = 0x00#5 ∧ size ≠ 0b11#2 := by
  revert r we size addr
  decide

/-- A request that hits the CTRL row is a 4-byte write of CTRL (20_memory.md R42). -/
theorem fields_of_firstMatch_wrCtrl {r we : Bool} {size : BitVec 2} {addr : BitVec 5}
    (h : firstMatch (mkReq r we size addr) = .wrCtrl) : r = true ∧ we = true ∧ addr = 0x0C#5 ∧ size = 0b10#2 := by
  revert r we size addr
  decide

/-- The ports that carry a DATA write. -/
theorem ports_of_instr_wrData {p : PortInputs} {w : Word}
    (h : p.instr = .wrData8 w ∨ p.instr = .wrData16 w ∨ p.instr = .wrData32 w) :
    p.req = true ∧ p.we = true ∧ p.addr = 0x00#5 ∧ p.size ≠ 0b11#2 := by
  apply fields_of_firstMatch_wrData
  rw [firstMatch_eq_opcodeOf_decode _ p.wdata]
  exact h.imp (congrArg opcodeOf) (Or.imp (congrArg opcodeOf) (congrArg opcodeOf))

/-- The ports that carry a write of CTRL. -/
theorem ports_of_instr_wrCtrl {p : PortInputs} {w : Word} (h : p.instr = .wrCtrl w) :
    p.req = true ∧ p.we = true ∧ p.addr = 0x0C#5 ∧ p.size = 0b10#2 ∧ p.wdata = w := by
  have hrow : firstMatch (mkReq p.req p.we p.size p.addr) = .wrCtrl := by
    rw [firstMatch_eq_opcodeOf_decode _ p.wdata]
    exact congrArg opcodeOf h
  obtain ⟨hreq, hwe, haddr, hsize⟩ := fields_of_firstMatch_wrCtrl hrow
  exact ⟨hreq, hwe, haddr, hsize, eq_of_decode_eq_wrCtrl h⟩

end

/-- An operation that changes ACC or ODD is a DATA write or a CLEAR. -/
theorem exec_changes_stream {i : Instr} {s t : State} (h : exec i s = .next t) (hne : t.acc ≠ s.acc ∨ t.odd ≠ s.odd) :
    (∃ w, i = .wrData8 w ∨ i = .wrData16 w ∨ i = .wrData32 w) ∨ ∃ w, i = .wrCtrl w ∧ ctrlClear w = true := by
  obtain ⟨_, rfl⟩ | ⟨_, _, _, _, rfl⟩ | ⟨_, rfl, _⟩ | ⟨w, hi, hw, _⟩ | ⟨w, _, hi, _⟩ := exec_cases h
  case inr.inr.inr.inl => exact .inr ⟨w, hi, hw⟩
  case inr.inr.inr.inr => exact .inl ⟨w, hi.imp And.left (Or.imp And.left And.left)⟩
  all_goals simp at hne

/-- Settles O31: an operation of `exec_changes_stream` puts its row's fields on the ports; a stopped clock changes nothing, and after
the loss of the state the engine does not run. -/
theorem onlyFeedClearAndResetChangeTheStream : Obligations.OnlyFeedClearAndResetChangeTheStream := by
  intro s t _ ht h hne
  rw [step_eq] at h
  obtain ⟨p, he, hrst, _⟩ | ⟨p, he, _, _, hexec⟩ | ⟨_, _, _, _, _, rfl⟩ | ⟨_, _, rfl⟩ | ⟨_, _, rfl⟩ | ⟨_, rfl⟩ :=
    hostStep_cases h
  case inl => exact ⟨p, he, .inl hrst⟩
  case inr.inl =>
    obtain ⟨w, hi⟩ | ⟨w, hi, hw⟩ := exec_changes_stream hexec hne
    · exact ⟨p, he, .inr (.inl (ports_of_instr_wrData hi))⟩
    · obtain ⟨hreq, hwe, haddr, hsize, rfl⟩ := ports_of_instr_wrCtrl hi
      exact ⟨p, he, .inr (.inr ⟨hreq, hwe, haddr, hsize, hw⟩)⟩
  case inr.inr.inr.inl => simp at hne
  all_goals simp at ht

/-! ### What ACC hides (R31) -/

/-- fold16 of a sum depends on ACC through fold16(ACC) alone: it is the residue of the sum at 16 bits. -/
theorem fold16_eac32_congr {a b : Word} (h : fold16 a = fold16 b) (c : Word) :
    fold16 (eac32 a c) = fold16 (eac32 b c) := by
  have hresidue (x : Word) : (fold16 (eac32 x c)).toNat = eacResidue 16 (x.toNat + c.toNat) :=
    fold16_residue (eac32_keeps_residue (toNat_eq_eacResidue x))
  have ha := eq_eacResidue_iff.1 (fold16_residue (toNat_eq_eacResidue a))
  have hb := eq_eacResidue_iff.1 (fold16_residue (toNat_eq_eacResidue b))
  have hsum := eq_eacResidue_iff.1 (hresidue b)
  rw [h] at ha
  rw [← BitVec.toNat_inj, hresidue, eq_comm, eq_eacResidue_iff]
  omega

/-- Related states are one state with two values of ACC that fold alike. -/
theorem sameButHiddenAcc_iff {s t : State} :
    sameButHiddenAcc s t ↔ ∃ a, fold16 a = fold16 t.acc ∧ s = { t with acc := a } := by
  constructor
  · rintro ⟨hfold, heq⟩
    exact ⟨s.acc, hfold, heq⟩
  · rintro ⟨a, hfold, rfl⟩
    exact ⟨hfold, rfl⟩

section
variable {s t : State} (h : sameButHiddenAcc s t)
include h

/-- The output ports are outside of ACC. -/
theorem responseOf_eq_of_sameButHiddenAcc : responseOf s = responseOf t := by
  obtain ⟨a, -, rfl⟩ := sameButHiddenAcc_iff.1 h
  rfl

theorem phase_eq_of_sameButHiddenAcc : s.phase = t.phase := by
  obtain ⟨a, -, rfl⟩ := sameButHiddenAcc_iff.1 h
  rfl

theorem feedByte_keeps_hidden (b : Byte) : sameButHiddenAcc (feedByte s b) (feedByte t b) := by
  obtain ⟨a, hfold, rfl⟩ := sameButHiddenAcc_iff.1 h
  exact ⟨fold16_eac32_congr hfold (contribution t.odd b), rfl⟩

theorem feedBytes_keeps_hidden (bs : List Byte) : sameButHiddenAcc (feedBytes s bs) (feedBytes t bs) := by
  induction bs generalizing s t with
  | nil => exact h
  | cons b bs ih => exact ih (feedByte_keeps_hidden h b)

theorem respond_keeps_hidden (v : Word) : sameButHiddenAcc (respond s v) (respond t v) := by
  obtain ⟨a, hfold, rfl⟩ := sameButHiddenAcc_iff.1 h
  exact ⟨hfold, rfl⟩

/-- CLEAR writes ACC anew. -/
theorem clearStream_keeps_hidden : sameButHiddenAcc (clearStream s) (clearStream t) := by
  obtain ⟨a, -, rfl⟩ := sameButHiddenAcc_iff.1 h
  exact ⟨rfl, rfl⟩

/-- From related states an operation leads to related states: the reads see ACC through fold16 alone. -/
theorem exec_keeps_hidden (i : Instr) :
    ∃ s' t', exec i s = .next s' ∧ exec i t = .next t' ∧ sameButHiddenAcc s' t' := by
  cases i with
  | wrData8 w => exact ⟨_, _, rfl, rfl, respond_keeps_hidden (feedBytes_keeps_hidden h (dataBytes8 w)) 0#32⟩
  | wrData16 w => exact ⟨_, _, rfl, rfl, respond_keeps_hidden (feedBytes_keeps_hidden h (dataBytes16 w)) 0#32⟩
  | wrData32 w => exact ⟨_, _, rfl, rfl, respond_keeps_hidden (feedBytes_keeps_hidden h (dataBytes32 w)) 0#32⟩
  | wrCtrl w =>
    refine ⟨_, _, rfl, rfl, respond_keeps_hidden ?_ 0#32⟩
    cases ctrlClear w
    · exact h
    · exact clearStream_keeps_hidden h
  | rdResult =>
    have hread : resultValue s = resultValue t := by rw [resultValue, resultValue, h.1]
    exact ⟨_, _, rfl, rfl, hread ▸ respond_keeps_hidden h (resultValue s)⟩
  | rdSum =>
    have hread : sumValue s = sumValue t := by rw [sumValue, sumValue, h.1]
    exact ⟨_, _, rfl, rfl, hread ▸ respond_keeps_hidden h (sumValue s)⟩
  | idle | rdStatus | busErr =>
    obtain ⟨a, hfold, rfl⟩ := sameButHiddenAcc_iff.1 h
    exact ⟨_, _, rfl, rfl, hfold, rfl⟩

/-- Reset writes ACC anew. -/
theorem resetEngine_keeps_hidden : sameButHiddenAcc (resetEngine s) (resetEngine t) := by
  obtain ⟨a, -, rfl⟩ := sameButHiddenAcc_iff.1 h
  exact ⟨rfl, rfl⟩

/-- So does the loss of the state. -/
theorem unspecify_keeps_hidden : sameButHiddenAcc (unspecify s) (unspecify t) := by
  obtain ⟨a, -, rfl⟩ := sameButHiddenAcc_iff.1 h
  exact ⟨rfl, rfl⟩

/-- From related states a host event leads to related states or is refused in both. -/
theorem hostStep_keeps_hidden (e : HostEvent) :
    (∃ s' t', hostStep e s = .next s' ∧ hostStep e t = .next t' ∧ sameButHiddenAcc s' t') ∨
    (∃ r, hostStep e s = .refused r ∧ hostStep e t = .refused r) := by
  have hphase := phase_eq_of_sameButHiddenAcc h
  have hlost := unspecify_keeps_hidden h
  cases e with
  | edge p =>
    cases hrst : p.rst
    · cases ht : t.phase <;> have hs := hphase.trans ht
      · cases hreq : p.req
        · exact .inl ⟨_, _, hostStep_edge_unreset_idle hrst hreq hs, hostStep_edge_unreset_idle hrst hreq ht, hlost⟩
        · exact .inr ⟨_, hostStep_edge_unreset_request hrst hreq hs, hostStep_edge_unreset_request hrst hreq ht⟩
      · rw [hostStep_edge_running hrst hs, hostStep_edge_running hrst ht]
        exact .inl (exec_keeps_hidden h p.instr)
    · exact .inl ⟨_, _, hostStep_edge_reset hrst s, hostStep_edge_reset hrst t, resetEngine_keeps_hidden h⟩
  | edgeNotBinary => exact .inr ⟨_, rfl, rfl⟩
  | clkStopped =>
    cases ht : t.phase <;> have hs := hphase.trans ht
    · exact .inl ⟨_, _, hostStep_clkStopped_unreset hs, hostStep_clkStopped_unreset ht, hlost⟩
    · exact .inl ⟨_, _, hostStep_clkStopped_running hs, hostStep_clkStopped_running ht, h⟩
  | powerLoss => exact .inl ⟨_, _, rfl, rfl, hlost⟩

/-- From related states the host does the same, to states that are again related. -/
theorem nextEvent_takeEvent_of_sameButHiddenAcc :
    nextEvent s = nextEvent t ∧ sameButHiddenAcc (takeEvent s) (takeEvent t) := by
  obtain ⟨a, hfold, rfl⟩ := sameButHiddenAcc_iff.1 h
  exact ⟨rfl, hfold, rfl⟩

end

/-- Settles O51: `hostStep_keeps_hidden` at the host's next event; related states show the same response. -/
theorem stepKeepsTheAccumulatorHidden : Obligations.StepKeepsTheAccumulatorHidden := by
  intro s t h
  obtain ⟨hevent, htake⟩ := nextEvent_takeEvent_of_sameButHiddenAcc h
  rw [step_eq, step_eq, hevent]
  refine (hostStep_keeps_hidden htake (nextEvent t)).imp_left ?_
  rintro ⟨s', t', hs, ht, hrel⟩
  exact ⟨s', t', hs, ht, hrel, responseOf_eq_of_sameButHiddenAcc hrel⟩

/-- What the host sees ends at a refused step. -/
theorem observed_of_refused {s : State} {r : Refusal} (k : Nat) (h : step s = .refused r) : observed k s = [] := by
  cases k with
  | zero => rfl
  | succ k => simp only [observed, h]

/-- Settles O44: induction on the length of the run, each step by O51's lemma. -/
theorem hiddenAccumulatorIsNeverSeen : Obligations.HiddenAccumulatorIsNeverSeen := by
  intro k
  induction k with
  | zero => exact fun _ _ _ => rfl
  | succ k ih =>
    intro s t h
    obtain ⟨s', t', hs, ht, hrel, hresp⟩ | ⟨r, hs, ht⟩ := stepKeepsTheAccumulatorHidden s t h
    · rw [observed_succ k hs, observed_succ k ht, hresp, ih s' t' hrel]
    · rw [observed_of_refused _ hs, observed_of_refused _ ht]

/-! ### Values read, and the values after reset (R26, R27, R30) -/

/-- RESULT of an empty accumulator. -/
theorem resultValue_of_acc_zero {s : State} (h : s.acc = 0#32) : resultValue s = 0x0000FFFF#32 := by
  rw [resultValue, h]
  decide

/-- SUM of an empty accumulator. -/
theorem sumValue_of_acc_zero {s : State} (h : s.acc = 0#32) : sumValue s = 0x00000000#32 := by
  rw [sumValue, h]
  decide

/-- Settles O13: the fields are those of `State.reset`, and the reads are those of an empty accumulator at ODD = 0. -/
theorem valuesAfterReset : Obligations.ValuesAfterReset := by
  refine ⟨rfl, rfl, rfl, rfl, rfl, ?_, ?_, rfl⟩
  · rw [exec_rdResult, resultValue_of_acc_zero rfl]
    rfl
  · rw [exec_rdSum, sumValue_of_acc_zero rfl]
    rfl

/-- Settles O28: both registers are a zero-extended half, RESULT's the complement of SUM's. -/
theorem resultAndSumAreComplements : Obligations.ResultAndSumAreComplements := by
  intro s
  refine ⟨_, _, exec_rdResult s, exec_rdSum s, ?_, upper_half_zero _, upper_half_zero _⟩
  rw [respond_rdata, respond_rdata, resultValue, sumValue, lower_half_field, lower_half_field]

/-- Settles O29: CLEAR leaves an empty accumulator. -/
theorem resultAfterClearIsFFFF : Obligations.ResultAfterClearIsFFFF := by
  intro w s hw
  refine ⟨_, _, exec_wrCtrl w s, exec_rdResult _, resultValue_of_acc_zero ?_⟩
  rw [respond_acc, ctrlClear, if_pos hw, clearStream_acc]

/-- Settles O33: after reset there is no response, and err and rdata are 0. -/
theorem resetOutputsAreSettled : Obligations.ResetOutputsAreSettled := by
  intro _
  exact ⟨fun _ => ⟨rfl, rfl⟩, fun herr => absurd herr Bool.false_ne_true, BitVec.extractLsb'_zero⟩

end Sys2Proof.Machine
end

section
/-!
PROOFS, 20_memory.md. The output ports after every operation and step (R40, R47), the progress of a running engine, the accesses of the
register map (R42 to R44), the bits of WDATA that they ignore (R45), and their side effects (R48).
-/
namespace Sys2Proof.Machine

/-! ### The output ports (R40, R47) -/

/-- Zeros on err and rdata are right with a response and without. -/
theorem outputsSettled_of_zeros {s : State} (herr : s.err = false) (hrdata : s.rdata = 0#32) : outputsSettled s := by
  intro _
  refine ⟨fun _ => ⟨herr, hrdata⟩, fun h => ?_, by rw [hrdata, BitVec.extractLsb'_zero]⟩
  rw [herr] at h
  exact absurd h Bool.false_ne_true

/-- A response without an error shows its read data, which must not reach above bit 15. -/
theorem outputsSettled_respond {v : Word} (hv : v.extractLsb' 16 16 = 0#16) (s : State) : outputsSettled (respond s v) :=
  fun _ => ⟨fun h => absurd h.symm Bool.false_ne_true, fun h => absurd h Bool.false_ne_true, hv⟩

/-- An error response shows no read data (60_exceptions.md R102). -/
theorem outputsSettled_raiseBusError (s : State) : outputsSettled (raiseBusError s) :=
  fun _ => ⟨fun h => absurd h.symm Bool.false_ne_true, fun _ => ⟨rfl, rfl⟩, BitVec.extractLsb'_zero⟩

/-- Before the first reset nothing is claimed of the ports (70_reset_and_hazards.md R121). -/
theorem outputsSettled_unspecify (s : State) : outputsSettled (unspecify s) := by
  intro h
  simp at h

/-- Every operation leaves the ports settled, whatever they showed before. -/
theorem outputsSettled_of_exec {i : Instr} {s t : State} (h : exec i s = .next t) : outputsSettled t := by
  obtain ⟨-, rfl⟩ | ⟨_, _, _, -, rfl⟩ | ⟨_, rfl, hv⟩ | ⟨_, -, -, rfl⟩ | ⟨_, _, -, rfl⟩ := exec_cases h
  · exact outputsSettled_of_zeros rfl rfl
  · exact outputsSettled_raiseBusError s
  · exact outputsSettled_respond hv s
  · exact outputsSettled_of_zeros rfl rfl
  · exact outputsSettled_of_zeros rfl rfl

/-- Settles O32: reset and every operation settle the ports anew, a stopped clock holds them, and without a reset nothing is claimed. -/
theorem stepKeepsOutputsSettled : Obligations.StepKeepsOutputsSettled := by
  intro s t hs h
  rw [step_eq] at h
  obtain ⟨_, _, _, rfl⟩ | ⟨_, _, _, _, hexec⟩ | ⟨_, _, _, _, _, rfl⟩ | ⟨_, _, rfl⟩ | ⟨_, _, rfl⟩ | ⟨_, rfl⟩ :=
    hostStep_cases h
  · exact outputsSettled_of_zeros rfl rfl
  · exact outputsSettled_of_exec hexec
  · exact outputsSettled_unspecify _
  · exact hs
  · exact outputsSettled_unspecify _
  · exact outputsSettled_unspecify _

/-! ### A running engine goes on (R40, 60_exceptions.md R100) -/

/-- Settles O16: of the events that a running engine can meet only non-binary inputs have no next state, and only the loss of power
ends the running. -/
theorem runningEngineNeverStops : Obligations.RunningEngineNeverStops := by
  intro s hp hne
  have hrun : (takeEvent s).phase = .running := hp
  rw [step_eq]
  cases he : nextEvent s with
  | edge p =>
    cases hrst : p.rst
    · obtain ⟨t, ht⟩ := exec_completes p.instr (takeEvent s)
      obtain ⟨-, hphase, -⟩ := exec_frame ht
      exact ⟨t, (hostStep_edge_running hrst hrun).trans ht, fun _ => hphase.trans hrun⟩
    · exact ⟨_, hostStep_edge_reset hrst _, fun _ => resetEngine_phase _⟩
  | edgeNotBinary => exact absurd he hne
  | clkStopped => exact ⟨_, hostStep_clkStopped_running hrun, fun _ => hrun⟩
  | powerLoss => exact ⟨_, rfl, fun h => absurd rfl h⟩

/-! ### What each operation answers (R40, R100, R102) -/

/-- Settles O27: IDLE gives no response, a BusError an error response, and every other operation responds without an error. -/
theorem everyOperationAnswersForItself : Obligations.EveryOperationAnswersForItself := by
  intro i s
  cases i with
  | idle => exact ⟨_, exec_idle s, by simp, by simp⟩
  | busErr we size addr => exact ⟨_, exec_busErr we size addr s, by simp, by simp⟩
  | wrData8 | wrData16 | wrData32 | wrCtrl | rdResult | rdSum | rdStatus => exact ⟨respond _ _, rfl, by simp, by simp⟩

/-! ### Which requests decode to what (R42 to R44, 30_encoding.md R62) -/

section
open Laws.EncodesOwnRow (opcodeOf)

theorem opcodeOf_eq_idle_iff (i : Instr) : opcodeOf i = .idle ↔ i = .idle := by
  cases i <;> simp [opcodeOf]

/-- A request decodes to IDLE exactly when none is presented (R63). -/
theorem decode_eq_idle_iff (r : ReqVec) (w : Word) : decode r w = .idle ↔ r.getLsbD 8 = false := by
  rw [← opcodeOf_eq_idle_iff, ← firstMatch_eq_opcodeOf_decode]
  revert r
  decide

/-- A request decodes to BUSERR exactly when that is its row, and then with its own fields (R64). -/
theorem decode_eq_busErr_iff (r : ReqVec) (w : Word) :
    decode r w = .busErr (reqWe r) (reqSize r) (reqAddr r) ↔ firstMatch r = .busErr := by
  constructor
  · intro h
    rw [firstMatch_eq_opcodeOf_decode r w, h]
    rfl
  · intro h
    rw [decode, h]

end

/-- The rows of the opcode map above BUSERR are the accesses of the register map. -/
theorem firstMatch_mkReq_eq_busErr_iff (we : Bool) (size : BitVec 2) (addr : BitVec 5) :
    firstMatch (mkReq true we size addr) = .busErr ↔ legalAccess we size addr = false := by
  revert we size addr
  decide

/-- The accesses of the register map, one disjunct for each kind of register: DATA, CTRL, and those that are read. -/
theorem legalAccess_iff (we : Bool) (size : BitVec 2) (addr : BitVec 5) :
    legalAccess we size addr = true ↔
      (addr = 0x00#5 ∧ we = true ∧ size ≠ 0b11#2) ∨
      (addr = 0x0C#5 ∧ we = true ∧ size = 0b10#2) ∨
      ((addr = 0x04#5 ∨ addr = 0x08#5 ∨ addr = 0x10#5) ∧ we = false ∧ size = 0b10#2) := by
  revert we size addr
  decide

/-- Settles O5: BUSERR is the row of every request that the register map has no access for. -/
theorem legalRequestsAreTheRegisterMap : Obligations.LegalRequestsAreTheRegisterMap := by
  intro we size addr w
  have hfields := decode_eq_busErr_iff (mkReq true we size addr) w
  rw [reqWe_mkReq, reqSize_mkReq, reqAddr_mkReq] at hfields
  rw [hfields, firstMatch_mkReq_eq_busErr_iff, ← legalAccess_iff, Bool.not_eq_true]

/-! ### An edge of a running engine (R40) -/

/-- Settles O10: the event is an edge, so the step is reset or exec; a presented request is no IDLE, so O27 gives its response. -/
theorem stepRunsTheDecodedRequest : Obligations.StepRunsTheDecodedRequest := by
  intro s p es hp hev
  have hexec (hrst : p.rst = false) : step s = exec p.instr { s with events := es } :=
    (step_cons hev).trans (hostStep_edge_running hrst hp)
  have hidle : p.instr = .idle ↔ p.req = false := by
    rw [← getLsbD_mkReq p.req p.we p.size p.addr]
    exact decode_eq_idle_iff _ p.wdata
  refine ⟨fun hrst => ?_, hexec, fun hrst hreq => ?_, fun hrst hreq => ?_⟩
  · rw [step_cons hev, hostStep_edge_reset hrst]
    simp only [resetEngine, State.reset]
  · obtain ⟨t, ht, -, hrsp⟩ := everyOperationAnswersForItself p.instr { s with events := es }
    obtain ⟨hevents, -, -⟩ := exec_frame ht
    refine ⟨t, (hexec hrst).trans ht, ?_, hevents⟩
    rw [← Bool.not_eq_false, hrsp, hidle, Bool.not_eq_false]
    exact hreq
  · rw [hexec hrst, hidle.2 hreq, exec_idle, noResponse]

/-! ### The bits of WDATA that an access ignores (R45) -/

@[simp] theorem decode_wrData8_row (w : Word) : decode 0x180#9 w = .wrData8 w := by
  rw [decode, show firstMatch 0x180#9 = .wrData8 by decide]

@[simp] theorem decode_wrData16_row (w : Word) : decode 0x1A0#9 w = .wrData16 w := by
  rw [decode, show firstMatch 0x1A0#9 = .wrData16 by decide]

/-- A 1-byte write feeds from WDATA[7:0] alone. -/
theorem dataBytes8_congr {w w' : Word} (h : w.extractLsb' 0 8 = w'.extractLsb' 0 8) : dataBytes8 w = dataBytes8 w' := by
  rw [dataBytes8, dataBytes8, h]

/-- A 2-byte write feeds from WDATA[15:0] alone: its bytes are those of that field. -/
theorem dataBytes16_congr {w w' : Word} (h : w.extractLsb' 0 16 = w'.extractLsb' 0 16) : dataBytes16 w = dataBytes16 w' := by
  have hfield (v : Word) : dataBytes16 v = dataBytes16 ((v.extractLsb' 0 16).setWidth 32) := (dataBytes16_field v 0).symm
  rw [hfield w, hfield w', h]

/-- A request with we = 0 hits none of the rows whose operation carries WDATA. -/
theorem firstMatch_of_not_we {r : ReqVec} (h : r.getLsbD 7 = false) :
    firstMatch r ∉ [.wrData8, .wrData16, .wrData32, .wrCtrl] := by
  revert r
  decide

/-- So it decodes alike under every WDATA. -/
theorem decode_congr_of_not_we {r : ReqVec} (h : r.getLsbD 7 = false) (w w' : Word) : decode r w = decode r w' := by
  have hrow := firstMatch_of_not_we h
  unfold decode
  cases hr : firstMatch r <;> simp [hr] at hrow ⊢

/-- Settles O20: the bytes fed depend on the bits of the access size alone, and a request with we = 0 decodes without WDATA. -/
theorem wdataAboveTheSizeIsIgnored : Obligations.WdataAboveTheSizeIsIgnored := by
  intro w w' s
  refine ⟨fun h => ?_, fun h => ?_, fun r hwe => ?_⟩
  · rw [decode_wrData8_row, decode_wrData8_row, exec_wrData8, exec_wrData8, dataBytes8_congr h]
  · rw [decode_wrData16_row, decode_wrData16_row, exec_wrData16, exec_wrData16, dataBytes16_congr h]
  · rw [decode_congr_of_not_we hwe w w']

/-! ### Side effects (R48) -/

/-- An operation done twice acts on the stream twice. -/
theorem exec_twice_tracks {S : List Byte} {s : State} (hs : tracks S s) (i : Instr) :
    ∃ t u, exec i s = .next t ∧ exec i t = .next u ∧ tracks (streamAfter i (streamAfter i S)) u := by
  obtain ⟨t, ht⟩ := exec_completes i s
  obtain ⟨u, hu⟩ := exec_completes i t
  exact ⟨t, u, ht, hu, exec_keeps_tracks (exec_keeps_tracks hs ht) hu⟩

/-- Settles O30: a read only responds, CLEAR writes ACC and ODD anew, and a DATA write appends its bytes each time. -/
theorem sideEffectsOfEachAccess : Obligations.SideEffectsOfEachAccess := by
  intro s w
  refine ⟨fun i hi => ?_, fun hw => ?_, fun hw => ?_, fun we size addr => ?_, fun S bs i hs hi => ?_⟩
  · obtain rfl | rfl | rfl := hi
    · exact ⟨_, exec_rdResult s, rfl, rfl, rfl⟩
    · exact ⟨_, exec_rdSum s, rfl, rfl, rfl⟩
    · exact ⟨_, exec_rdStatus s, rfl, rfl, rfl⟩
  · have hclear (u : State) : exec (.wrCtrl w) u = .next (respond (clearStream u) 0#32) := by
      rw [exec_wrCtrl, ctrlClear, if_pos hw]
    exact ⟨_, hclear s, hclear _⟩
  · refine ⟨_, exec_wrCtrl w s, ?_⟩
    rw [ctrlClear, hw, if_neg Bool.false_ne_true]
    exact ⟨rfl, rfl⟩
  · exact ⟨_, exec_busErr we size addr s, rfl, rfl⟩
  · obtain ⟨rfl, rfl⟩ | ⟨rfl, rfl⟩ | ⟨rfl, rfl⟩ := hi
    · exact exec_twice_tracks hs (.wrData8 w)
    · exact exec_twice_tracks hs (.wrData16 w)
    · exact exec_twice_tracks hs (.wrData32 w)

/-! ### Placing RESULT in a buffer (R54, 70_reset_and_hazards.md R126) -/

/-- Settles O49: of the two bytes set, the second is not at the first one's offset. -/
theorem resultPlacement : Obligations.ResultPlacement := by
  intro B f rdata hf
  unfold placeResult
  refine ⟨?_, ?_, by rw [List.length_set, List.length_set], fun k hk hk' => ?_⟩
  · rw [List.getElem?_set_ne (by omega), List.getElem?_set_self (by omega)]
  · rw [List.getElem?_set_self (by rw [List.length_set]; exact hf)]
  · rw [List.getElem?_set_ne (Ne.symm hk'), List.getElem?_set_ne (Ne.symm hk)]

end Sys2Proof.Machine
end

section
/-!
PROOFS, 30_encoding.md. Decoder and encoder agree (R60, R62), the decoder is the opcode map (R62), the assembler's rows and
pseudo-instructions (R67, R68), what a running engine does with a list of requests, and table words.
-/
namespace Sys2Proof.Machine

/-! ### Decoding what was encoded (R60, R62) -/

section
open Laws
open Laws.EncodesOwnRow (opcodeOf)

/-- A well-formed operation's encoding hits that operation's own row. -/
theorem firstMatch_encode {i : Instr} (h : i.wf = true) : firstMatch (encode i).req = opcodeOf i := by
  cases i with
  | idle => exact EncodesOwnRow.idle h
  | wrData8 w => exact EncodesOwnRow.wrData8 w h
  | wrData16 w => exact EncodesOwnRow.wrData16 w h
  | wrData32 w => exact EncodesOwnRow.wrData32 w h
  | wrCtrl w => exact EncodesOwnRow.wrCtrl w h
  | rdResult => exact EncodesOwnRow.rdResult h
  | rdSum => exact EncodesOwnRow.rdSum h
  | rdStatus => exact EncodesOwnRow.rdStatus h
  | busErr we size addr => exact EncodesOwnRow.busErr we size addr h

/-- Settles O3: the encoding hits the operation's own row, and the operands stand where the decoder reads them. -/
theorem decodeOfEncodeIsTheInstruction : Obligations.DecodeOfEncodeIsTheInstruction := by
  intro i h
  have hrow := firstMatch_encode h
  rw [Request.decode, decode, hrow]
  cases i with
  | busErr we size addr => simp only [opcodeOf, encode, reqWe_mkReq, reqSize_mkReq, reqAddr_mkReq]
  | idle | wrData8 | wrData16 | wrData32 | wrCtrl | rdResult | rdSum | rdStatus => rfl

end

/-! ### Encoding what was decoded (R60, R64 to R66) -/

/-- A request that hits BUSERR's row is presented. -/
theorem getLsbD_of_firstMatch_busErr {r : ReqVec} (h : firstMatch r = .busErr) : r.getLsbD 8 = true := by
  revert r
  decide

/-- A request that hits BUSERR's row is no access of the register map (20_memory.md R42). -/
theorem legalAccess_of_firstMatch_busErr {r : ReqVec} (h : firstMatch r = .busErr) :
    legalAccess (reqWe r) (reqSize r) (reqAddr r) = false := by
  rw [← firstMatch_mkReq_eq_busErr_iff, ← getLsbD_of_firstMatch_busErr h, mkReq_fields, h]

/-- Whatever stands on the ports decodes to a well-formed operation. -/
theorem decode_wf (r : ReqVec) (w : Word) : (decode r w).wf = true := by
  unfold decode
  cases hrow : firstMatch r with
  | busErr => rw [Instr.wf, legalAccess_of_firstMatch_busErr hrow, Bool.not_false]
  | idle | wrData8 | wrData16 | wrData32 | wrCtrl | rdResult | rdSum | rdStatus => rfl

/-- WDATA has no part in the REQ that a decoded operation encodes to. -/
theorem encode_decode_req_congr (r : ReqVec) (w w' : Word) : (encode (decode r w)).req = (encode (decode r w')).req := by
  unfold decode
  cases firstMatch r <;> rfl

/-- Of a presented request nothing of REQ is lost; by `encode_decode_req_congr` one WDATA stands for all. -/
theorem encode_decode_req {r : ReqVec} (h : r.getLsbD 8 = true) (w : Word) : (encode (decode r w)).req = r := by
  rw [encode_decode_req_congr r w 0#32]
  revert r
  decide

@[simp] theorem decode_wrData32_row (w : Word) : decode 0x1C0#9 w = .wrData32 w := by
  rw [decode, show firstMatch 0x1C0#9 = .wrData32 by decide]

@[simp] theorem decode_wrCtrl_row (w : Word) : decode 0x1CC#9 w = .wrCtrl w := by
  rw [decode, show firstMatch 0x1CC#9 = .wrCtrl by decide]

@[simp] theorem decode_rdResult_row (w : Word) : decode 0x144#9 w = .rdResult := by
  rw [decode, show firstMatch 0x144#9 = .rdResult by decide]

@[simp] theorem decode_rdSum_row (w : Word) : decode 0x148#9 w = .rdSum := by
  rw [decode, show firstMatch 0x148#9 = .rdSum by decide]

@[simp] theorem decode_rdStatus_row (w : Word) : decode 0x150#9 w = .rdStatus := by
  rw [decode, show firstMatch 0x150#9 = .rdStatus by decide]

/-- Settles O4: the decoder keeps REQ of a presented request and hands on the WDATA of a write. -/
theorem encodeOfDecodeKeepsWhatIsUsed : Obligations.EncodeOfDecodeKeepsWhatIsUsed := by
  intro r w w'
  refine ⟨decode_wf r w, fun h => encode_decode_req h w, (decode_eq_idle_iff r w).2, ?_, encode_decode_req_congr r w w'⟩
  rintro (rfl | rfl | rfl | rfl)
  · rw [decode_wrData8_row, encode]
  · rw [decode_wrData16_row, encode]
  · rw [decode_wrData32_row, encode]
  · rw [decode_wrCtrl_row, encode]

/-! ### The opcode map (R62) -/

/-- Settles O1: each word is one of its row's, so the row's decoding gives the operation. -/
theorem writtenOutWordsDecode : Obligations.WrittenOutWordsDecode :=
  ⟨(decode_eq_idle_iff _ _).2 (by decide), (decode_eq_idle_iff _ _).2 (by decide), decode_wrData8_row _,
    decode_wrData16_row _, decode_wrData32_row _, decode_wrCtrl_row _, decode_rdResult_row _, decode_rdSum_row _,
    decode_rdStatus_row _, (decode_eq_busErr_iff _ _).2 (by decide), (decode_eq_busErr_iff _ _).2 (by decide)⟩

/-- A row whose mask is 0x1FF hits its own value alone. -/
theorem hits_fullMask (o : Opcode) (v r : ReqVec) : OpcodeRow.hits ⟨o, v, 0x1FF#9⟩ r = (r == v) := by
  have hall : r &&& 0x1FF#9 = r := BitVec.and_allOnes
  rw [OpcodeRow.hits, hall]

/-- The search through a table takes its first row or goes on with the rest. -/
theorem find?_hits_cons (row : OpcodeRow) (rows : List OpcodeRow) (r : ReqVec) :
    (row :: rows).find? (fun row => row.hits r) =
      if row.hits r then some row else rows.find? (fun row => row.hits r) := by
  rw [List.find?_cons]
  cases row.hits r <;> rfl

/-- The rows in their order: after IDLE the seven legal ones, each at one value, and BUSERR for what is left. -/
theorem firstMatch_eq_chain (r : ReqVec) :
    firstMatch r =
      if r &&& 0x100#9 = 0x000#9 then .idle
      else if r = 0x180#9 then .wrData8
      else if r = 0x1A0#9 then .wrData16
      else if r = 0x1C0#9 then .wrData32
      else if r = 0x1CC#9 then .wrCtrl
      else if r = 0x144#9 then .rdResult
      else if r = 0x148#9 then .rdSum
      else if r = 0x150#9 then .rdStatus
      else .busErr := by
  simp only [firstMatch, opcodeTable, find?_hits_cons, List.find?_nil, hits_fullMask]
  simp only [OpcodeRow.hits, beq_iff_eq]
  split_ifs <;> rfl

/-- IDLE's row holds the REQ values below 2^8, those with req = 0. -/
theorem firstMatch_eq_idle_iff (r : ReqVec) : firstMatch r = .idle ↔ r.toNat < 256 := by
  revert r
  decide

/-- The REQ values of the seven legal rows. -/
def legalReqs : List Nat := [0x180, 0x1A0, 0x1C0, 0x1CC, 0x144, 0x148, 0x150]

theorem firstMatch_legal_iff (r : ReqVec) :
    (firstMatch r ≠ .idle ∧ firstMatch r ≠ .busErr) ↔ r.toNat ∈ legalReqs := by
  revert r
  decide

/-- Numbers below n are counted by a list of them without repetition. -/
theorem countP_range_eq_length {n : Nat} {L : List Nat} {p : Nat → Bool} (hnodup : L.Nodup) (hlt : ∀ k ∈ L, k < n)
    (hp : ∀ k < n, p k = true ↔ k ∈ L) : (List.range n).countP p = L.length := by
  have hperm : ((List.range n).filter p).Perm L := by
    rw [List.perm_ext_iff_of_nodup (List.nodup_range.filter p) hnodup]
    intro k
    rw [List.mem_filter, List.mem_range]
    exact ⟨fun ⟨hk, hpk⟩ => (hp k hk).1 hpk, fun hk => ⟨hlt k hk, (hp k (hlt k hk)).2 hk⟩⟩
  rw [List.countP_eq_length_filter, hperm.length_eq]

/-- Every REQ is IDLE, BUSERR or legal, and only one of these. -/
theorem countP_opcode_add (L : List ReqVec) :
    L.countP (fun r => firstMatch r == .idle) + L.countP (fun r => firstMatch r == .busErr) +
      L.countP (fun r => firstMatch r != .idle && firstMatch r != .busErr) = L.length := by
  induction L with
  | nil => rfl
  | cons r L ih =>
    simp only [List.countP_cons, List.length_cons, ← ih]
    cases firstMatch r <;> simp <;> omega

theorem toNat_ofNat_req {k : Nat} (hk : k < 512) : (BitVec.ofNat 9 k : ReqVec).toNat = k := by
  rw [BitVec.toNat_ofNat, Nat.mod_eq_of_lt hk]

theorem countP_idle : (List.range 512).countP (fun n => firstMatch (BitVec.ofNat 9 n) == .idle) = 256 := by
  refine (countP_range_eq_length List.nodup_range (fun k hk => ?_) fun k hk => ?_).trans (List.length_range (n := 256))
  · exact Nat.lt_trans (List.mem_range.1 hk) (by decide)
  · rw [beq_iff_eq, firstMatch_eq_idle_iff, toNat_ofNat_req hk, List.mem_range]

theorem countP_legal : (List.range 512).countP
    (fun n => firstMatch (BitVec.ofNat 9 n) != .idle && firstMatch (BitVec.ofNat 9 n) != .busErr) = 7 := by
  refine countP_range_eq_length (L := legalReqs) (by decide) (by decide) fun k hk => ?_
  rw [Bool.and_eq_true, bne_iff_ne, bne_iff_ne, firstMatch_legal_iff, toNat_ofNat_req hk]

/-- BUSERR's count is what IDLE and the legal rows leave of the 512. -/
theorem countP_busErr : (List.range 512).countP (fun n => firstMatch (BitVec.ofNat 9 n) == .busErr) = 249 := by
  have hall := countP_opcode_add ((List.range 512).map (BitVec.ofNat 9))
  simp only [List.countP_map, Function.comp_def, countP_idle, countP_legal, List.length_map, List.length_range] at hall
  omega

/-- Settles O2: the decoder hands on the operands of the row that `firstMatch_eq_chain` gives, and the counts are those of the rows. -/
theorem opcodeMapFirstMatchWins : Obligations.OpcodeMapFirstMatchWins := by
  refine ⟨fun r w => ?_, countP_idle, countP_busErr, countP_legal⟩
  rw [decode, firstMatch_eq_chain]
  split_ifs <;> rfl

/-! ### The assembler (R67, R68) -/

theorem assemble_rawWr (size : BitVec 2) (off : BitVec 5) (imm : Word) :
    assembleRequest (.rawWr size.toNat off.toNat imm.toNat) = some ⟨mkReq true true size off, imm⟩ := by
  rw [assembleRequest, if_pos ⟨size.isLt, off.isLt, imm.isLt⟩]
  simp only [BitVec.ofNat_toNat, BitVec.setWidth_eq]

theorem assemble_rawRd (size : BitVec 2) (off : BitVec 5) :
    assembleRequest (.rawRd size.toNat off.toNat) = some ⟨mkReq true false size off, 0#32⟩ := by
  rw [assembleRequest, if_pos ⟨size.isLt, off.isLt⟩]
  simp only [BitVec.ofNat_toNat, BitVec.setWidth_eq]

/-- Settles O7: each row is assembled as written, and a conditional row is refused exactly outside its condition. -/
theorem assemblerRows : Obligations.AssemblerRows := by
  refine ⟨fun imm => ⟨rfl, rfl, rfl, rfl⟩, rfl, rfl, rfl, rfl,
    fun size off imm => ⟨assemble_rawWr size off imm, assemble_rawRd size off⟩, fun size off imm => ⟨?_, ?_⟩⟩
  · simp only [assembleRequest, ite_eq_right_iff, reduceCtorEq, imp_false, not_and_or, not_lt]
  · simp only [assembleRequest, ite_eq_right_iff, reduceCtorEq, imp_false, not_and_or, not_lt]

/-- Zero extension to 32 bits puts zeros above. -/
theorem setWidth_half (a b : Byte) : (a ++ b).setWidth 32 = 0x0000#16 ++ a ++ b := by
  apply BitVec.eq_of_toNat_eq
  rw [append_toNat, append_toNat, BitVec.toNat_setWidth_of_le (by decide), append_toNat]
  simp

theorem setWidth_byte (b : Byte) : b.setWidth 32 = 0x000000#24 ++ b := by
  apply BitVec.eq_of_toNat_eq
  rw [append_toNat, BitVec.toNat_setWidth_of_le (by decide)]
  simp

/-- Settles O8: the groups are the equations of `feedRequests`, with its zero extensions written out. -/
theorem pseudoExpansions : Obligations.PseudoExpansions := by
  refine ⟨rfl, rfl, fun _ => rfl, fun a b c d B => ⟨rfl, ?_, ?_, ?_, rfl⟩, fun _ => rfl⟩
  · rw [feedRequests, setWidth_half, setWidth_byte]
  · rw [feedRequests, setWidth_half]
  · rw [feedRequests, setWidth_byte]

/-! ### Requests carried out by a running engine -/

/-- The stream after a list of requests (10_state.md R24). -/
def streamAfterRequests (qs : List Request) (S : List Byte) : List Byte :=
  qs.foldl (fun S q => streamAfter q.decode S) S

@[simp] theorem streamAfterRequests_nil (S : List Byte) : streamAfterRequests [] S = S := rfl

@[simp] theorem streamAfterRequests_cons (q : Request) (qs : List Request) (S : List Byte) :
    streamAfterRequests (q :: qs) S = streamAfterRequests qs (streamAfter q.decode S) := rfl

@[simp] theorem edgesOf_nil : edgesOf [] = [] := rfl

@[simp] theorem edgesOf_cons (q : Request) (qs : List Request) :
    edgesOf (q :: qs) = .edge (.ofRequest q) :: edgesOf qs := rfl

@[simp] theorem edgesOf_append (qs rs : List Request) : edgesOf (qs ++ rs) = edgesOf qs ++ edgesOf rs :=
  List.map_append

/-- A running engine carries out the request at its next edge and keeps running. -/
theorem step_of_request {s : State} {q : Request} {es : List HostEvent} (hp : s.phase = .running)
    (hev : s.events = .edge (.ofRequest q) :: es) :
    ∃ t, step s = .next t ∧ exec q.decode (takeEvent s) = .next t ∧ t.phase = .running ∧ t.events = es := by
  obtain ⟨t, ht⟩ := exec_completes q.decode (takeEvent s)
  obtain ⟨hevents, hphase, -⟩ := exec_frame ht
  have htail : takeEvent s = { s with events := es } := by rw [takeEvent, hev, List.tail_cons]
  refine ⟨t, ?_, ht, hphase.trans hp, by rw [hevents, htail]⟩
  rw [step_request hp hev, ← htail]
  exact ht

/-- A run with an end takes its first step to where the rest of it starts. -/
theorem run_succ_iff {n : Nat} {s t : State} :
    core.run (n + 1) s = .next t ↔ ∃ u, step s = .next u ∧ core.run n u = .next t := by
  constructor
  · intro h
    cases hstep : step s with
    | next u => exact ⟨u, rfl, (run_succ n hstep).symm.trans h⟩
    | fault r => cases r
    | refused r =>
      have hc : core.step s = .refused r := hstep
      have hrun := (Host.Core.run.eq_2 core s n).symm.trans h
      rw [hc] at hrun
      cases hrun
  · rintro ⟨u, hstep, hrun⟩
    exact (run_succ n hstep).trans hrun

/-- A run goes on from where its first part ends. -/
theorem run_add {m : Nat} {s t : State} (h : core.run m s = .next t) (n : Nat) : core.run (m + n) s = core.run n t := by
  induction m generalizing s with
  | zero =>
    cases h
    rw [Nat.zero_add]
  | succ m ih =>
    obtain ⟨u, hstep, hrun⟩ := run_succ_iff.1 h
    rw [Nat.succ_add, run_succ _ hstep, ih hrun]

/-- A running engine carries out a list of requests, in order, and its stream follows them. -/
theorem run_requests {qs : List Request} {S : List Byte} {s : State} {rest : List HostEvent} (hp : s.phase = .running)
    (hs : tracks S s) (hev : s.events = edgesOf qs ++ rest) :
    ∃ t, core.run qs.length s = .next t ∧ tracks (streamAfterRequests qs S) t ∧ t.phase = .running ∧ t.events = rest := by
  induction qs generalizing S s with
  | nil => exact ⟨s, rfl, hs, hp, hev⟩
  | cons q qs ih =>
    obtain ⟨u, hstep, hexec, hup, huev⟩ := step_of_request hp hev
    obtain ⟨t, hrun, ht⟩ := ih hup (exec_keeps_tracks (tracks_takeEvent.2 hs) hexec) huev
    exact ⟨t, (run_succ qs.length hstep).trans hrun, ht⟩

/-- The requests of `feed B` append B to the stream. -/
theorem streamAfterRequests_feedRequests (B S : List Byte) : streamAfterRequests (feedRequests B) S = S ++ B := by
  induction B using feedRequests.induct generalizing S with
  | case1 b0 b1 b2 b3 rest ih => simp [feedRequests, Request.decode, streamAfter, ih]
  | case2 b0 b1 b2 => simp [feedRequests, Request.decode, streamAfter]
  | case3 b0 b1 => simp [feedRequests, Request.decode, streamAfter]
  | case4 b0 => simp [feedRequests, Request.decode, streamAfter]
  | case5 => simp [feedRequests]

/-- Settles O40: the engine carries out the requests of `feed B`, and these append B. -/
theorem feedExpansionFeedsTheBuffer : Obligations.FeedExpansionFeedsTheBuffer := by
  intro B S s rest hp hs hev
  rw [← streamAfterRequests_feedRequests B S]
  exact run_requests hp hs hev

/-- `clear` empties the stream (41_control_status.md R90). -/
theorem tracks_nil_of_clearRequest {s t : State} (h : exec clearRequest.decode s = .next t) : tracks [] t := by
  rw [clearRequest, Request.decode, decode_wrCtrl_row, exec_wrCtrl, if_pos (by decide)] at h
  cases h
  exact tracks_nil rfl rfl

/-- A read of RESULT answers the checksum of the stream (41_control_status.md R91). -/
theorem exec_rdResult_of_tracks {S : List Byte} {s : State} (h : tracks S s) :
    exec .rdResult s = .next (respond s ((checksum S).setWidth 32)) := by
  rw [exec_rdResult, resultValue, not_fold16_of_tracks h]

/-- Settles O42: `clear` empties the stream, O40 feeds B into it, and `rd.result` answers the checksum of what was fed. -/
theorem cksumPseudoReturnsTheChecksum : Obligations.CksumPseudoReturnsTheChecksum := by
  intro B s rest hp hev
  simp only [cksumRequests, List.cons_append, edgesOf_cons, edgesOf_append, List.append_assoc] at hev
  obtain ⟨u, hclear, hu, hup, huev⟩ := step_of_request hp hev
  obtain ⟨v, hfeed, hv, hvp, hvev⟩ := feedExpansionFeedsTheBuffer B [] u _ hup (tracks_nil_of_clearRequest hu) huev
  obtain ⟨t, hread, ht, -, htev⟩ := step_of_request hvp hvev
  rw [Request.decode, decode_rdResult_row, exec_rdResult_of_tracks (tracks_takeEvent.2 hv)] at ht
  cases ht
  refine ⟨respond (takeEvent v) _, ?_, rfl, rfl, rfl, tracks_takeEvent.2 hv, htev⟩
  rw [cksumRequests, List.cons_append, List.length_cons, List.length_append, run_succ _ hclear, run_add hfeed]
  exact run_succ 0 hread

/-! ### Table words (logs 7 and 8) -/

/-- REQ and WDATA share no bits of the numeral, so each is read back. -/
theorem ofBits_toBits (q : Request) : Request.ofBits q.toBits = .ok q := by
  have hr := q.req.isLt
  have hw := q.wdata.isLt
  rw [Request.ofBits, Request.toBits, if_neg (by omega), if_neg (by omega)]
  refine congrArg Except.ok (congrArg₂ Request.mk ?_ ?_) <;> rw [← BitVec.toNat_inj, BitVec.toNat_ofNat] <;> omega

theorem toBits_lt (q : Request) : q.toBits < 2 ^ 48 := by
  have hr := q.req.isLt
  have hw := q.wdata.isLt
  rw [Request.toBits]
  omega

/-- A numeral that decodes is the numeral of a request. -/
theorem decodeTableWord_eq_some_iff {nbits w : Nat} {i : Instr} :
    decodeTableWord nbits w = some i ↔ ∃ q, Request.ofBits (w % 2 ^ nbits) = .ok q ∧ q.decode = i := by
  unfold decodeTableWord
  cases Request.ofBits (w % 2 ^ nbits) <;> simp

theorem withFetchWord_of_ofBits {nbits w : Nat} {q : Request} (h : Request.ofBits (w % 2 ^ nbits) = .ok q) (s : State) :
    s.withFetchWord nbits w = presentRequest s q := by
  rw [State.withFetchWord, h]

theorem step_presentRequest {s : State} (hp : s.phase = .running) (q : Request) :
    step (presentRequest s q) = exec q.decode s := by
  rw [step_request (presentRequest_phase s q) (presentRequest_events s q), presentRequest, ← hp]
  rfl

/-- Settles O9: a numeral that decodes is read as the request that is then placed. -/
theorem placedTableWordRunsNext : Obligations.PlacedTableWordRunsNext := by
  refine ⟨fun q => ?_, fun s nbits w i hp h => ?_⟩
  · rw [decodeTableWord_eq_some_iff, Nat.mod_eq_of_lt (toBits_lt q)]
    exact ⟨q, ofBits_toBits q, rfl⟩
  · obtain ⟨q, hq, rfl⟩ := decodeTableWord_eq_some_iff.1 h
    rw [withFetchWord_of_ofBits hq, step_presentRequest hp]

end Sys2Proof.Machine
end

section
/-!
PROOFS, 40_data_feed.md. What the DATA writes compute at either phase (R81 to R83), that only the bytes they feed matter and not their
grouping (R84), and that of a stream only its total and its length do (R84, 10_state.md R23).
-/
namespace Sys2Proof.Machine

/-! ### FeedByte at either phase, and feeding beside a response (R80) -/

@[simp] theorem flipOdd_false : flipOdd false = true := rfl

@[simp] theorem flipOdd_true : flipOdd true = false := rfl

@[simp] theorem contribution_false (b : Byte) : contribution false b = b.setWidth 32 <<< 8 := rfl

@[simp] theorem contribution_true (b : Byte) : contribution true b = b.setWidth 32 := rfl

/-- Feeding and responding, written out by fields: the rest of the state is as it was. -/
theorem respond_feedBytes (s : State) (bs : List Byte) (v : Word) :
    respond (feedBytes s bs) v =
      { s with acc := (feedBytes s bs).acc, odd := (feedBytes s bs).odd, rsp := true, err := false, rdata := v } := by
  rw [respond, feedBytes_eq]

/-- A response that stands on the ports has no part in feeding. -/
theorem feedBytes_respond (s : State) (bs : List Byte) (v : Word) :
    feedBytes (respond s v) bs = respond (feedBytes s bs) v := by
  induction bs generalizing s with
  | nil => rfl
  | cons b bs ih => exact ih (feedByte s b)

/-- Two writes in a row feed their bytes in a row. -/
theorem respond_feedBytes_twice (s : State) (bs cs : List Byte) (v : Word) :
    respond (feedBytes (respond (feedBytes s bs) v) cs) v = respond (feedBytes s (bs ++ cs)) v := by
  rw [feedBytes_respond, feedBytes_append]
  rfl

/-! ### Two bytes in one end-around addition (R82) -/

/-- Two end-around additions are one where the addends' sum is a word: both keep the residue of the whole sum (00_scope.md R10). -/
theorem eac32_eac32_of_toNat_add {b c d : Word} (h : b.toNat + c.toNat = d.toNat) (a : Word) :
    eac32 (eac32 a b) c = eac32 a d := by
  have ha := toNat_eq_eacResidue a
  apply BitVec.eq_of_toNat_eq
  rw [eac32_keeps_residue (eac32_keeps_residue ha), eac32_keeps_residue ha, Nat.add_assoc, h]

/-- A 16-bit field of WDATA, fed as a high and a low byte, is added in one. -/
theorem eac32_field_bytes (a w : Word) (k : Nat) :
    eac32 (eac32 a ((w.extractLsb' (k + 8) 8).setWidth 32 <<< 8)) ((w.extractLsb' k 8).setWidth 32) =
      eac32 a ((w.extractLsb' k 16).setWidth 32) :=
  eac32_eac32_of_toNat_add (field_bytes_toNat w k) a

/-! ### The three DATA writes (R81 to R83) -/

/-- Settles O17: one FeedByte, at each phase. -/
theorem wrData8FeedsOneByte : Obligations.WrData8FeedsOneByte := by
  intro w s
  refine ⟨decode_wrData8_row w, ?_⟩
  rw [exec_wrData8, respond_feedBytes]
  cases hodd : s.odd <;> simp [dataBytes8, hodd]

/-- Settles O18: two FeedBytes flip ODD back; at ODD = 0 they add one 16-bit field of WDATA. -/
theorem wrData16FeedsTwoBytes : Obligations.WrData16FeedsTwoBytes := by
  intro w s
  refine ⟨decode_wrData16_row w, ?_, fun hodd => ?_⟩
  · rw [exec_wrData16, respond_feedBytes]
    cases hodd : s.odd <;> simp [dataBytes16, hodd]
  · rw [exec_wrData16, respond_feedBytes, ← eac32_field_bytes]
    simp [dataBytes16, hodd]

/-- Settles O19: four FeedBytes flip ODD back twice; at ODD = 0 they add two 16-bit fields of WDATA. -/
theorem wrData32FeedsFourBytes : Obligations.WrData32FeedsFourBytes := by
  intro w s
  refine ⟨decode_wrData32_row w, ?_, fun hodd => ?_⟩
  · rw [exec_wrData32, respond_feedBytes]
    cases hodd : s.odd <;> simp [dataBytes32, hodd]
  · rw [exec_wrData32, respond_feedBytes, ← eac32_field_bytes _ w 16, ← eac32_field_bytes _ w 0]
    simp [dataBytes32, hodd]

/-! ### A wide write is two narrower ones (R84) -/

theorem dataBytes32_eq_append (w : Word) :
    dataBytes32 w =
      dataBytes16 ((w.extractLsb' 16 16).setWidth 32) ++ dataBytes16 ((w.extractLsb' 0 16).setWidth 32) := by
  rw [dataBytes16_field, dataBytes16_field]
  rfl

theorem dataBytes16_eq_append (w : Word) :
    dataBytes16 w = dataBytes8 ((w.extractLsb' 8 8).setWidth 32) ++ dataBytes8 ((w.extractLsb' 0 8).setWidth 32) := by
  rw [dataBytes8_setWidth, dataBytes8_setWidth]
  rfl

/-- Settles O38: the two narrower writes feed the wide one's bytes, and the second one's response stands. -/
theorem wideWritesSplit : Obligations.WideWritesSplit := by
  intro w s
  refine ⟨⟨_, _, exec_wrData16 _ s, exec_wrData16 _ _, ?_⟩, ⟨_, _, exec_wrData8 _ s, exec_wrData8 _ _, ?_⟩⟩
  · rw [exec_wrData32, respond_feedBytes_twice, dataBytes32_eq_append]
  · rw [exec_wrData16, respond_feedBytes_twice, dataBytes16_eq_append]

/-! ### Sequences of DATA writes (R84) -/

/-- A write of DATA, of any size. -/
def IsDataWrite (i : Instr) : Prop := ∃ w, i = .wrData8 w ∨ i = .wrData16 w ∨ i = .wrData32 w

/-- The bytes that a sequence of operations feeds, in feed order (10_state.md R24). -/
def bytesFedBy (is : List Instr) : List Byte := is.flatMap fun i => streamAfter i []

/-- One `wr.d8` for each byte. -/
def singleByteWrites (bs : List Byte) : List Instr := bs.map fun b => .wrData8 (b.setWidth 32)

@[simp] theorem bytesFedBy_cons (i : Instr) (is : List Instr) : bytesFedBy (i :: is) = streamAfter i [] ++ bytesFedBy is := rfl

theorem isDataWrite_of_mem_singleByteWrites {bs : List Byte} {i : Instr} (h : i ∈ singleByteWrites bs) : IsDataWrite i := by
  obtain ⟨b, -, rfl⟩ := List.mem_map.1 h
  exact ⟨_, .inl rfl⟩

@[simp] theorem bytesFedBy_singleByteWrites (bs : List Byte) : bytesFedBy (singleByteWrites bs) = bs := by
  induction bs with
  | nil => rfl
  | cons b bs ih =>
    calc bytesFedBy (singleByteWrites (b :: bs))
      _ = dataBytes8 (b.setWidth 32) ++ bytesFedBy (singleByteWrites bs) := rfl
      _ = b :: bs := by rw [dataBytes8_setWidth, ih, List.singleton_append]

@[simp] theorem length_singleByteWrites (bs : List Byte) : (singleByteWrites bs).length = bs.length := List.length_map _

theorem map_encode_singleByteWrites (bs : List Byte) :
    (singleByteWrites bs).map encode = bs.map fun b => ⟨0x180#9, b.setWidth 32⟩ := List.map_map

/-- A DATA write feeds what R24 appends for it, and responds without an error or data. -/
theorem exec_of_isDataWrite {i : Instr} (h : IsDataWrite i) (s : State) :
    exec i s = .next (respond (feedBytes s (streamAfter i [])) 0#32) := by
  obtain ⟨w, rfl | rfl | rfl⟩ := h
  · exact exec_wrData8 w s
  · exact exec_wrData16 w s
  · exact exec_wrData32 w s

theorem decode_encode_of_isDataWrite {i : Instr} (h : IsDataWrite i) : (encode i).decode = i := by
  apply decodeOfEncodeIsTheInstruction
  obtain ⟨w, rfl | rfl | rfl⟩ := h <;> rfl

/-- Feeding goes on where a write left off: neither its event nor its response has a part in ACC and ODD. -/
theorem feedBytes_after_write (s : State) (bs cs : List Byte) :
    (feedBytes (respond (feedBytes (takeEvent s) bs) 0#32) cs).acc = (feedBytes s (bs ++ cs)).acc ∧
      (feedBytes (respond (feedBytes (takeEvent s) bs) 0#32) cs).odd = (feedBytes s (bs ++ cs)).odd := by
  rw [feedBytes_respond, ← feedBytes_append, respond_acc, respond_odd]
  exact feedBytes_congr (takeEvent_acc s) (takeEvent_odd s) (bs ++ cs)

/-- A running engine carries out DATA writes to the end: ACC and ODD are those after feeding their bytes, and every response is (0, 0). -/
theorem run_dataWrites {is : List Instr} {s : State} {rest : List HostEvent} (h : ∀ i ∈ is, IsDataWrite i)
    (hp : s.phase = .running) (hev : s.events = edgesOf (is.map encode) ++ rest) :
    ∃ t, core.run is.length s = .next t ∧
      t.acc = (feedBytes s (bytesFedBy is)).acc ∧ t.odd = (feedBytes s (bytesFedBy is)).odd ∧ t.events = rest ∧
      observed is.length s = List.replicate is.length (some ⟨false, 0#32⟩) := by
  induction is generalizing s with
  | nil => exact ⟨s, rfl, rfl, rfl, hev, rfl⟩
  | cons i is ih =>
    obtain ⟨hi, his⟩ := List.forall_mem_cons.1 h
    obtain ⟨u, hstep, hexec, hup, huev⟩ := step_of_request hp hev
    obtain ⟨t, hrun, hacc, hodd, htev, hobs⟩ := ih his hup huev
    rw [decode_encode_of_isDataWrite hi, exec_of_isDataWrite hi] at hexec
    cases hexec
    obtain ⟨haccAll, hoddAll⟩ := feedBytes_after_write s (streamAfter i []) (bytesFedBy is)
    refine ⟨t, (run_succ _ hstep).trans hrun, hacc.trans haccAll, hodd.trans hoddAll, htev, ?_⟩
    exact (observed_succ _ hstep).trans (congrArg _ hobs)

/-- Settles O37: both sequences feed the same bytes into the same ACC and ODD. -/
theorem groupingOfDataWrites : Obligations.GroupingOfDataWrites := by
  intro is s rest his hp bytes grouped single
  obtain ⟨t, htrun, htacc, htodd, htev, htobs⟩ := run_dataWrites (s := grouped) his hp rfl
  have hsingle : single.events = edgesOf ((singleByteWrites bytes).map encode) ++ rest := by
    rw [map_encode_singleByteWrites]
  obtain ⟨u, hurun, huacc, huodd, huev, huobs⟩ :=
    run_dataWrites (s := single) (fun _ => isDataWrite_of_mem_singleByteWrites) hp hsingle
  rw [length_singleByteWrites] at hurun huobs
  rw [bytesFedBy_singleByteWrites] at huacc huodd
  obtain ⟨hacc, hodd⟩ := feedBytes_congr (s := grouped) (t := single) rfl rfl bytes
  exact ⟨t, u, htrun, hurun, htacc.trans (hacc.trans huacc.symm), htodd.trans (hodd.trans huodd.symm), htev, huev,
    htobs, huobs⟩

/-! ### Total and length alone (R84, 10_state.md R23) -/

/-- States that stand for streams of equal total and length have equal ACC and ODD. -/
theorem acc_odd_eq_of_tracks {S S' : List Byte} {s s' : State} (hs : tracks S s) (hs' : tracks S' s')
    (htotal : total S = total S') (hlength : S.length = S'.length) : s.acc = s'.acc ∧ s.odd = s'.odd := by
  obtain ⟨hacc, hodd⟩ := hs
  obtain ⟨hacc', hodd'⟩ := hs'
  constructor
  · rw [← BitVec.toNat_inj, hacc, hacc', htotal]
  · rw [hodd, hodd', hlength]

/-- From equal ACC at ODD = 0, bytes of equal total and length lead to equal ACC and ODD. -/
theorem feedBytes_acc_odd_eq_of_total {s s' : State} {bs bs' : List Byte} (hacc : s.acc = s'.acc) (hodd : s.odd = false)
    (hodd' : s'.odd = false) (htotal : total bs = total bs') (hlength : bs.length = bs'.length) :
    (feedBytes s bs).acc = (feedBytes s' bs').acc ∧ (feedBytes s bs).odd = (feedBytes s' bs').odd := by
  obtain ⟨hfed, hphase⟩ := feedBytes_from_even bs s hodd
  obtain ⟨hfed', hphase'⟩ := feedBytes_from_even bs' s' hodd'
  constructor
  · rw [← BitVec.toNat_inj, hfed, hfed', hacc, htotal]
  · rw [hphase, hphase', hlength]

/-- Settles O39: each engine ends with the ACC and ODD of feeding its bytes, and these agree under either premise. -/
theorem stateDependsOnTotalAndLength : Obligations.StateDependsOnTotalAndLength := by
  intro is js s s' rest rest' his hjs hp hp' fed fed' h
  obtain ⟨t, htrun, htacc, htodd, -⟩ :=
    run_dataWrites (s := { s with events := edgesOf (is.map encode) ++ rest }) his hp rfl
  obtain ⟨u, hurun, huacc, huodd, -⟩ :=
    run_dataWrites (s := { s' with events := edgesOf (js.map encode) ++ rest' }) hjs hp' rfl
  refine ⟨t, u, htrun, hurun, ?_⟩
  rw [htacc, htodd, huacc, huodd]
  obtain ⟨S, S', hs, hs', htotal, hlength⟩ | ⟨hacc, hodd, hodd', htotal, hlength⟩ := h
  · refine acc_odd_eq_of_tracks (tracks_feedBytes ?_ fed) (tracks_feedBytes ?_ fed') htotal hlength
    · exact hs
    · exact hs'
  · exact feedBytes_acc_odd_eq_of_total hacc hodd hodd' htotal hlength

end Sys2Proof.Machine
end

section
/-!
PROOFS, 41_control_status.md. What WRCTRL, RDRESULT, RDSUM, RDSTATUS and IDLE compute and leave unchanged (R90 to R94).
-/
namespace Sys2Proof.Machine

/-! ### WRCTRL (R90) -/

theorem exec_wrCtrl_of_clear {w : Word} (h : ctrlClear w = true) (s : State) :
    exec (.wrCtrl w) s = .next (respond (clearStream s) 0#32) := by
  rw [exec_wrCtrl, if_pos h]

theorem exec_wrCtrl_of_not_clear {w : Word} (h : ctrlClear w = false) (s : State) :
    exec (.wrCtrl w) s = .next (respond s 0#32) := by
  rw [exec_wrCtrl, h, if_neg Bool.false_ne_true]

/-- Settles O21: CTRL.CLEAR is WDATA[0]. -/
theorem wrCtrlClearsOnBitZero : Obligations.WrCtrlClearsOnBitZero :=
  fun w s => ⟨decode_wrCtrl_row w, fun h => exec_wrCtrl_of_clear h s, fun h => exec_wrCtrl_of_not_clear h s⟩

/-! ### The reads (R91 to R93) -/

/-- Settles O22: the response shows RESULT. -/
theorem rdResultReadsTheComplement : Obligations.RdResultReadsTheComplement :=
  fun w s => ⟨decode_rdResult_row w, exec_rdResult s⟩

/-- Settles O23: the response shows SUM. -/
theorem rdSumReadsTheFold : Obligations.RdSumReadsTheFold :=
  fun w s => ⟨decode_rdSum_row w, exec_rdSum s⟩

/-- STATUS as a number (10_state.md R29). -/
theorem statusValue_eq_ite (s : State) : statusValue s = if s.odd then 0x00000001#32 else 0x00000000#32 := by
  rw [statusValue]
  cases s.odd <;> rfl

/-- Settles O24: the response shows STATUS. -/
theorem rdStatusReadsThePhase : Obligations.RdStatusReadsThePhase := by
  intro w s
  refine ⟨decode_rdStatus_row w, ?_⟩
  rw [exec_rdStatus, statusValue_eq_ite, respond]

/-! ### IDLE (R94) -/

/-- Settles O25: bit 8 of REQ is req, and without a request there is no response. -/
theorem idleGivesNoResponse : Obligations.IdleGivesNoResponse :=
  fun r w s h => ⟨(decode_eq_idle_iff r w).2 h, exec_idle s⟩

end Sys2Proof.Machine
end

section
/-!
PROOFS, 60_exceptions.md. The cause of a BusError at each kind of offset (R103), the response to one (R102), and what a stopped clock and a
loss of power do (R111, R121).
-/
namespace Sys2Proof.Machine

/-! ### The cause at each kind of offset (R101, R103) -/

section
variable {addr : BitVec 5}

/-- R103's order sorts the offsets: the misaligned ones, the unmapped words, DATA, CTRL, and the registers that are read. -/
theorem offset_cases (addr : BitVec 5) :
    addr.extractLsb' 0 2 ≠ 0#2 ∨ (addr = 0x14#5 ∨ addr = 0x18#5 ∨ addr = 0x1C#5) ∨ addr = 0x00#5 ∨ addr = 0x0C#5 ∨
      (addr = 0x04#5 ∨ addr = 0x08#5 ∨ addr = 0x10#5) := by
  revert addr
  decide

theorem busErrorCause_of_misaligned (h : addr.extractLsb' 0 2 ≠ 0#2) (we : Bool) (size : BitVec 2) :
    busErrorCause we size addr = some .misaligned := if_pos h

theorem busErrorCause_of_unmapped (h : addr = 0x14#5 ∨ addr = 0x18#5 ∨ addr = 0x1C#5) (we : Bool) (size : BitVec 2) :
    busErrorCause we size addr = some .unmapped := by
  obtain rfl | rfl | rfl := h <;> rfl

theorem busErrorCause_read_of_writeOnly (h : addr = 0x00#5 ∨ addr = 0x0C#5) (size : BitVec 2) :
    busErrorCause false size addr = some .direction := by
  obtain rfl | rfl := h <;> rfl

theorem busErrorCause_write_of_readOnly (h : addr = 0x04#5 ∨ addr = 0x08#5 ∨ addr = 0x10#5) (size : BitVec 2) :
    busErrorCause true size addr = some .direction := by
  obtain rfl | rfl | rfl := h <;> rfl

/-- DATA takes every size but the reserved one (20_memory.md R43). -/
theorem busErrorCause_write_data (size : BitVec 2) :
    busErrorCause true size 0x00#5 = if size = 0b11#2 then some .size else none := by
  revert size
  decide

/-- CTRL takes words only (20_memory.md R43). -/
theorem busErrorCause_write_ctrl (size : BitVec 2) :
    busErrorCause true size 0x0C#5 = if size = 0b10#2 then none else some .size := by
  revert size
  decide

/-- The registers that are read give words only (20_memory.md R43). -/
theorem busErrorCause_read_of_readOnly (h : addr = 0x04#5 ∨ addr = 0x08#5 ∨ addr = 0x10#5) (size : BitVec 2) :
    busErrorCause false size addr = if size = 0b10#2 then none else some .size := by
  revert size
  obtain rfl | rfl | rfl := h <;> decide

/-- At an offset that is no register no access is legal. -/
theorem legalAccess_of_no_register (h : addr.extractLsb' 0 2 ≠ 0#2 ∨ addr = 0x14#5 ∨ addr = 0x18#5 ∨ addr = 0x1C#5)
    (we : Bool) (size : BitVec 2) : legalAccess we size addr = false := by
  revert addr we size
  decide

end

/-- The list of causes leaves exactly the accesses of the register map without one. -/
theorem busErrorCause_eq_none_iff (we : Bool) (size : BitVec 2) (addr : BitVec 5) :
    busErrorCause we size addr = none ↔ legalAccess we size addr = true := by
  obtain h | h | rfl | rfl | h := offset_cases addr
  case inl => simp [busErrorCause_of_misaligned h, legalAccess_of_no_register (.inl h)]
  case inr.inl => simp [busErrorCause_of_unmapped h, legalAccess_of_no_register (.inr h)]
  case inr.inr.inl =>
    cases we
    · simp [busErrorCause_read_of_writeOnly, legalAccess]
    · simp [busErrorCause_write_data, legalAccess]
  case inr.inr.inr.inl =>
    cases we
    · simp [busErrorCause_read_of_writeOnly, legalAccess]
    · simp [busErrorCause_write_ctrl, legalAccess]
  case inr.inr.inr.inr =>
    cases we
    · simp [busErrorCause_read_of_readOnly h, legalAccess_iff, h]
    · obtain rfl | rfl | rfl := h <;> simp [busErrorCause_write_of_readOnly, legalAccess]

/-- Settles O6: the causes by kind of offset; both BUSERR and having a cause say that the register map has no such access. -/
theorem busErrorCauseIsTheFirstThatHolds : Obligations.BusErrorCauseIsTheFirstThatHolds := by
  intro we size addr w
  refine ⟨?_, fun h => busErrorCause_of_misaligned h we size, fun h => busErrorCause_of_unmapped h we size, ?_, ?_, ?_, ?_, ?_,
    rfl, rfl, rfl, rfl⟩
  · rw [legalRequestsAreTheRegisterMap we size addr w, ← legalAccess_iff, ← busErrorCause_eq_none_iff]
    exact Option.ne_none_iff_exists'
  · rintro ⟨h, rfl⟩
    exact busErrorCause_read_of_writeOnly h size
  · rintro ⟨h, rfl⟩
    exact busErrorCause_write_of_readOnly h size
  · rintro ⟨rfl, rfl, rfl⟩
    exact busErrorCause_write_data _
  · rintro ⟨rfl, rfl, h⟩
    rw [busErrorCause_write_ctrl, if_neg h]
  · rintro ⟨hr, rfl, h⟩
    rw [busErrorCause_read_of_readOnly hr, if_neg h]

/-! ### The response to a BusError (R102) -/

/-- Settles O26: the meaning of BUSERR is the error response, whatever its fields. -/
theorem busErrorRespondsAndChangesNothing : Obligations.BusErrorRespondsAndChangesNothing :=
  exec_busErr

/-! ### A stopped clock, a loss of power, and an engine that has not been reset (R111, R121) -/

/-- Settles O14: each clause is one event's equation at the state whose list of events has moved on. -/
theorem clockStopAndPowerLoss : Obligations.ClockStopAndPowerLoss := by
  intro s es
  refine ⟨fun hev hp => ?_, fun hev => ?_, fun p hev hp hrst hreq => ?_, fun p hev hp hrst hreq => ?_, fun p hev _ hrst => ?_⟩
  · exact (step_cons hev).trans (hostStep_clkStopped_running hp)
  · exact ⟨_, step_cons hev, unspecify_phase _, unspecify_events _⟩
  · exact (step_cons hev).trans (hostStep_edge_unreset_request hrst hreq hp)
  · exact ⟨_, (step_cons hev).trans (hostStep_edge_unreset_idle hrst hreq hp), unspecify_phase _, unspecify_events _⟩
  · exact ⟨_, (step_cons hev).trans (hostStep_edge_reset hrst _), resetEngine_phase _, resetEngine_events _⟩

end Sys2Proof.Machine
end

section
/-!
PROOFS, 70_reset_and_hazards.md. Reset (R120), the host protocol with any mix of DATA writes (R123), the IPv4 header that is checksummed
and then verified (R124 to R126), and a host whose list of events has ended (log 2).
-/
namespace Sys2Proof.Machine

/-! ### Reset, and a host with nothing left to do (R120, log 2) -/

/-- Settles O12: the edge resets, and what `resetEngine` leaves is the model's own. -/
theorem resetEdgeSetsTheResetValues : Obligations.ResetEdgeSetsTheResetValues := by
  intro s p es hev hrst
  rw [step_cons hev, hostStep_edge_reset hrst, resetEngine]

/-- A host that presents nothing puts IDLE on the ports (30_encoding.md R63). -/
@[simp] theorem instr_quiet : PortInputs.quiet.instr = .idle := by
  rw [PortInputs.quiet, instr_ofRequest, decode_eq_idle_iff]
  rfl

theorem nextEvent_of_nil {s : State} (hev : s.events = []) : nextEvent s = .edge .quiet := by
  rw [nextEvent, hev, List.headD_nil]

theorem takeEvent_of_nil {s : State} (hev : s.events = []) : takeEvent s = s := by
  rw [takeEvent, hev, List.tail_nil, ← hev]

/-- Settles O11: the event is the quiet edge, which carries IDLE. -/
theorem endedHostPresentsNoRequest : Obligations.EndedHostPresentsNoRequest := by
  intro s hp hev
  rw [step_eq, nextEvent_of_nil hev, takeEvent_of_nil hev, hostStep_edge_running rfl hp, instr_quiet, exec_idle, noResponse]

/-! ### The host protocol (R123) -/

/-- A run that ends with a read of RESULT answers the checksum of the stream its other requests leave. -/
theorem run_requests_rdResult {qs : List Request} {q : Request} {S : List Byte} {s : State} {rest : List HostEvent}
    (hp : s.phase = .running) (hs : tracks S s) (hq : q.decode = .rdResult) (hev : s.events = edgesOf (qs ++ [q]) ++ rest) :
    ∃ t, core.run (qs.length + 1) s = .next t ∧ t.rsp = true ∧ t.err = false ∧
      t.rdata = (checksum (streamAfterRequests qs S)).setWidth 32 ∧ t.events = rest := by
  rw [edgesOf_append, List.append_assoc] at hev
  obtain ⟨u, hrun, hu, hup, huev⟩ := run_requests hp hs hev
  obtain ⟨t, hread, ht, -, htev⟩ := step_of_request hup huev
  rw [hq, exec_rdResult_of_tracks (tracks_takeEvent.2 hu)] at ht
  cases ht
  exact ⟨_, (run_add hrun 1).trans (run_succ 0 hread), rfl, rfl, rfl, htev⟩

/-- A DATA write appends to any stream what it appends to the empty one (10_state.md R24). -/
theorem streamAfter_of_isDataWrite {i : Instr} (h : IsDataWrite i) (S : List Byte) : streamAfter i S = S ++ streamAfter i [] := by
  obtain ⟨w, rfl | rfl | rfl⟩ := h <;> rfl

/-- The requests of DATA writes append the bytes that these feed. -/
theorem streamAfterRequests_dataWrites {is : List Instr} (h : ∀ i ∈ is, IsDataWrite i) (S : List Byte) :
    streamAfterRequests (is.map encode) S = S ++ bytesFedBy is := by
  induction is generalizing S with
  | nil => exact (List.append_nil S).symm
  | cons i is ih =>
    obtain ⟨hi, his⟩ := List.forall_mem_cons.1 h
    rw [List.map_cons, streamAfterRequests_cons, decode_encode_of_isDataWrite hi, ih his, streamAfter_of_isDataWrite hi,
      bytesFedBy_cons, List.append_assoc]

/-- The protocol without its CLEAR, where the stream is empty: DATA writes, then a read of RESULT. -/
theorem run_dataWrites_rdResult {is : List Instr} {s : State} {rest : List HostEvent} (h : ∀ i ∈ is, IsDataWrite i)
    (hp : s.phase = .running) (hs : tracks [] s) (hev : s.events = edgesOf ((is ++ [Instr.rdResult]).map encode) ++ rest) :
    ∃ t, core.run (is.length + 1) s = .next t ∧ t.rsp = true ∧ t.err = false ∧
      t.rdata = (checksum (bytesFedBy is)).setWidth 32 ∧ t.events = rest := by
  rw [List.map_append] at hev
  have hread : (encode .rdResult).decode = .rdResult := decodeOfEncodeIsTheInstruction _ rfl
  have hrun := run_requests_rdResult hp hs hread hev
  rwa [List.length_map, streamAfterRequests_dataWrites h, List.nil_append] at hrun

/-- Settles O41: CLEAR leaves the empty stream, from which the DATA writes feed B and the read answers its checksum. -/
theorem hostProtocolComputesTheChecksum : Obligations.HostProtocolComputesTheChecksum := by
  rintro B is s rest w his rfl hp
  refine ⟨fun hw => ?_, fun hs => run_dataWrites_rdResult his hp hs rfl⟩
  obtain ⟨u, hstep, hexec, hup, huev⟩ :=
    step_of_request (s := { s with events := edgesOf ((Instr.wrCtrl w :: is ++ [Instr.rdResult]).map encode) ++ rest }) hp rfl
  have hdecode : (encode (.wrCtrl w)).decode = .wrCtrl w := decodeOfEncodeIsTheInstruction _ rfl
  rw [hdecode, exec_wrCtrl_of_clear hw] at hexec
  cases hexec
  obtain ⟨t, hrun, ht⟩ := run_dataWrites_rdResult his hup (tracks_nil rfl rfl) huev
  exact ⟨t, (run_succ _ hstep).trans hrun, ht⟩

/-! ### Generating and verifying a header checksum (R124 to R126) -/

/-- An engine that carries out requests to the end is still running. -/
theorem phase_of_run_requests {qs : List Request} {s t : State} {rest : List HostEvent} (hrun : core.run qs.length s = .next t)
    (hp : s.phase = .running) (hev : s.events = edgesOf qs ++ rest) : t.phase = .running := by
  induction qs generalizing s with
  | nil =>
    cases hrun
    exact hp
  | cons q qs ih =>
    obtain ⟨u, hstep, -, hup, huev⟩ := step_of_request hp hev
    exact ih ((run_succ _ hstep).symm.trans hrun) hup huev

/-- `feed B` takes one request for each four bytes, and one or two for what remains (30_encoding.md R68). -/
theorem length_feedRequests (B : List Byte) : (feedRequests B).length = B.length / 4 + (B.length % 4 + 1) / 2 := by
  induction B using feedRequests.induct with
  | case1 b0 b1 b2 b3 rest ih =>
    simp only [feedRequests, List.length_cons, ih]
    omega
  | case2 | case3 | case4 | case5 => simp [feedRequests]

/-- `cksum B` of a 20-byte buffer takes 7 requests (R128). -/
theorem length_cksumRequests {B : List Byte} (h : B.length = 20) : (cksumRequests B).length = 7 := by
  rw [cksumRequests, List.length_append, List.length_cons, length_feedRequests, h]
  rfl

/-- `cksum` of a 20-byte buffer, run in 7 steps by an engine that keeps running. -/
theorem run_cksumRequests {B : List Byte} {s : State} (hlen : B.length = 20) (hp : s.phase = .running) (rest : List HostEvent) :
    ∃ t, core.run 7 { s with events := edgesOf (cksumRequests B) ++ rest } = .next t ∧ t.events = rest ∧ t.phase = .running ∧
      t.rsp = true ∧ t.err = false ∧ t.rdata = (checksum B).setWidth 32 := by
  obtain ⟨t, hrun, hrsp, herr, hrdata, -, hev⟩ :=
    cksumPseudoReturnsTheChecksum B { s with events := edgesOf (cksumRequests B) ++ rest } rest hp rfl
  have htp := phase_of_run_requests hrun hp rfl
  rw [length_cksumRequests hlen] at hrun
  exact ⟨t, hrun, hev, htp, hrsp, herr, hrdata⟩

/-- Zeros in a field that held zeros undo the placing of a result. -/
theorem placeResult_set_zero {B : List Byte} {f : Nat} (hx : B[f]? = some 0x00#8) (hy : B[f + 1]? = some 0x00#8) (v : Word) :
    ((placeResult B f v).set f 0x00#8).set (f + 1) 0x00#8 = B := by
  have hset {g : Nat} {b : Byte} (h : B[g]? = some b) : B.set g b = B := by
    obtain ⟨hlt, rfl⟩ := List.getElem?_eq_some_iff.1 h
    exact List.set_getElem_self hlt
  rw [placeResult, List.set_comm (i := f + 1) _ _ (by omega), List.set_set, List.set_set, hset hx, hset hy]

/-- A byte of the 16-bit value that a read of RESULT gives. -/
theorem extractLsb'_setWidth_half (c : Half) (k : Nat) :
    (c.setWidth 32 : Word).extractLsb' k 8 = c.extractLsb' k 8 := by
  rw [← BitVec.toNat_inj, BitVec.extractLsb'_toNat, BitVec.extractLsb'_toNat, BitVec.toNat_setWidth_of_le (by decide)]

/-- A checksum computed over a zero field at an even offset, placed there, makes the buffer verify (R125, 00_scope.md R12). -/
theorem checksum_placeResult {B : List Byte} {f : Nat} (heven : f % 2 = 0) (hx : B[f]? = some 0x00#8)
    (hy : B[f + 1]? = some 0x00#8) : checksum (placeResult B f ((checksum B).setWidth 32)) = 0x0000#16 := by
  obtain ⟨hlen, -⟩ := List.getElem?_eq_some_iff.1 hy
  obtain ⟨hhigh, hlow, hplaced, -⟩ := resultPlacement B f ((checksum B).setWidth 32) hlen
  obtain ⟨hverify, -⟩ := verificationLaw.1 (placeResult B f ((checksum B).setWidth 32)) f (hplaced ▸ hlen)
  rw [placeResult_set_zero hx hy] at hverify
  rw [extractLsb'_setWidth_half] at hhigh hlow
  exact hverify heven hhigh hlow

/-- Settles O43: the first `cksum` reads the checksum over the zero field at offset 10, and with it placed the second reads 0. -/
theorem headerChecksumVerifiesToZero : Obligations.HeaderChecksumVerifiesToZero := by
  intro n identification source s rest _ hp H
  have hlen : H.length = 20 := rfl
  obtain ⟨t, hrun, htev, htp, -, -, hrdata⟩ := run_cksumRequests hlen hp rest
  have hplaced : (placeResult H headerChecksumOffset t.rdata).length = 20 := by
    obtain ⟨-, -, hlength, -⟩ := resultPlacement H headerChecksumOffset t.rdata (by rw [hlen]; decide)
    exact hlength.trans hlen
  have hzero : checksum (placeResult H headerChecksumOffset t.rdata) = 0x0000#16 := by
    rw [hrdata]
    exact checksum_placeResult rfl rfl rfl
  obtain ⟨u, hrun', -, -, hrsp, herr, hread⟩ := run_cksumRequests hplaced htp rest
  rw [hzero] at hread
  exact ⟨t, hrun, htev, htp, hrdata, u, hrun', hrsp, herr, hread⟩

end Sys2Proof.Machine
end

section
/-!
PROOFS, 92_eei_decisions.md D27 and 93_implementation_defined.md I3. An edge whose inputs are not binary.
-/
namespace Sys2Proof.Machine

/-- An edge with non-binary inputs is refused in either phase, before reset as after it (D27, I3). -/
theorem hostStep_edgeNotBinary (s : State) : hostStep .edgeNotBinary s = .refused .inputsNotBinary := by
  rw [hostStep]

/-- Settles O15: the event at the head of the list is the one that `hostStep_edgeNotBinary` refuses. -/
theorem nonBinaryInputsAreRefused : Obligations.NonBinaryInputsAreRefused := by
  intro s es hev
  exact (step_cons hev).trans (hostStep_edgeNotBinary _)

end Sys2Proof.Machine
end
